-- ==== Sys2Proof/Word.lean ====
section
/-! DEFINITION. The block's two word types and its byte sequences (spec 00_scope.md R14, R15). -/

namespace Sys2Proof

/-- `u8`: an unsigned byte (R14). -/
abbrev Byte := BitVec 8

/-- `u16`: an unsigned 16-bit value; bit 0 is the least significant (R14). -/
abbrev U16 := BitVec 16

/-- `Bytes`: a finite sequence of bytes, index 0 first on the wire (R15). -/
abbrev Bytes := List Byte

end Sys2Proof
end

