-- ==== Sys2Proof/Config.lean ====
section
/-! DEFINITION. The three parameters fixed when the block is instantiated (spec 00_scope.md R10 to R13).
There is no free value: the spec leaves no value open (93_implementation_defined.md, end of part 1). -/

namespace Sys2Proof

/-- The two fully specified CRC-16 update functions (R10, R83, R84). -/
inductive CrcVariant where
  | hqx
  | arc
  deriving DecidableEq, Repr

/-- The implementation parameters; R13: there are no others. -/
structure Config where
  /-- `CRC_VARIANT` (R10). -/
  crcVariant : CrcVariant
  /-- `ACC_CAPACITY` (R11); `none` is `unbounded`. -/
  accCapacity : Option Nat
  /-- `HAS_ENCODER` (R12). -/
  hasEncoder : Bool
  deriving DecidableEq, Repr

/-- The defaults of R10, R11 and R12. -/
def Config.default : Config :=
  { crcVariant := .hqx, accCapacity := none, hasEncoder := true }

/-- The least finite `ACC_CAPACITY` an instance may choose: `MAX_FRAME` of the long form (R11). -/
def Config.minCapacity : Nat := 65543

/-- The instances the spec allows (R11, 92_eei_decisions.md D8). -/
def Config.wf (c : Config) : Bool :=
  match c.accCapacity with
  | none => true
  | some n => decide (Config.minCapacity ≤ n)

end Sys2Proof
end

