-- ==== Sys2Proof/Machine/Memory.lean ====
section
/-! DEFINITION. The memory primitives of the spec over one byte sequence (00_scope.md R15, R16; 20_memory.md R40 to
R46): byte order, reads of one and two bytes, append at the back, drop from the front; and the listing of a memory as
address and byte pairs. -/

namespace Sys2Proof

/-- `le16(lo, hi)`: the byte that comes first holds bits 7:0 (R15, R42). -/
def le16 (lo hi : Byte) : U16 := lo.setWidth 16 ||| (hi.setWidth 16 <<< 8)

/-- `lo8(v) = v[7:0]` (R15). -/
def lo8 (v : U16) : Byte := v.setWidth 8

/-- `hi8(v) = v[15:8]` (R15). -/
def hi8 (v : U16) : Byte := (v >>> 8).setWidth 8

/-- `lo8` of a length, a natural below 65536 (R64). -/
def lo8OfNat (n : Nat) : Byte := BitVec.ofNat 8 n

/-- `hi8` of a length, a natural below 65536 (R64). -/
def hi8OfNat (n : Nat) : Byte := BitVec.ofNat 8 (n / 256)

/-- `AccLen()` (R16). -/
def accLen (acc : Bytes) : Nat := acc.length

/-- `MemRead(off, 1)` (R16); no value where the offset does not exist. -/
def memRead1 (acc : Bytes) (off : Nat) : Option Byte := acc[off]?

/-- `MemRead(off, 2)` (R16), little-endian; no value where one of the two offsets does not exist. -/
def memRead2 (acc : Bytes) (off : Nat) : Option U16 :=
  match acc[off]?, acc[off + 1]? with
  | some lo, some hi => some (le16 lo hi)
  | _, _ => none

/-- The `n` bytes from offset `off` on (R45, the copy of the payload). -/
def memSlice (acc : Bytes) (off n : Nat) : Bytes := (acc.drop off).take n

/-- `AccAppend(s)` (R16): bytes enter only at the back. -/
def accAppend (acc s : Bytes) : Bytes := acc ++ s

/-- `AccDrop(n)` (R16): bytes leave only from the front, and the rest is renumbered from offset 0 (R41). -/
def accDrop (acc : Bytes) (n : Nat) : Bytes := acc.drop n

/-- A byte sequence as a list of (offset, byte) pairs, offsets counted from `k` (R40). -/
def memCellsFrom (k : Nat) : Bytes → List Host.Cell
  | [] => []
  | b :: rest => (k, b) :: memCellsFrom (k + 1) rest

/-- The accumulator's contents as (offset, byte) pairs. -/
def memCells (acc : Bytes) : List Host.Cell := memCellsFrom 0 acc

/-- The canonical form of such a listing: exactly the offsets `0 .. n-1`, rising (R40); an offset that is not listed
does not exist. -/
def Memory.wf (cells : List Host.Cell) : Bool :=
  cells.map Prod.fst == List.range cells.length

end Sys2Proof
end

