-- ==== Sys2Proof/Machine/Crc.lean ====
section
/-! DEFINITION. The CRC engine (40_registry_crc.md R82 to R91): the bitwise form, which the block's operations use, and
the LFSR and table-driven forms the spec derives from it. -/

namespace Sys2Proof.Machine

/-- Eight shifts, one per bit of a byte. -/
def eightTimes (f : U16 → U16) (c : U16) : U16 := f (f (f (f (f (f (f (f c)))))))

/-- One shift of the `HQX` register (R83). -/
def hqxShift (c : U16) : U16 :=
  if c.getLsbD 15 then (c <<< 1) ^^^ 0x1021 else c <<< 1

/-- One shift of the `ARC` register (R84). -/
def arcShift (c : U16) : U16 :=
  if c.getLsbD 0 then (c >>> 1) ^^^ 0xA001 else c >>> 1

/-- The register after one byte (R83, R84). -/
def crcByte (v : CrcVariant) (c : U16) (b : Byte) : U16 :=
  match v with
  | .hqx => eightTimes hqxShift (c ^^^ (b.setWidth 16 <<< 8))
  | .arc => eightTimes arcShift (c ^^^ b.setWidth 16)

/-- `CRC16(seed, s)` with the variant selected by `CRC_VARIANT` (R82, R91); no final exclusive-or, no reflection of the
result (R82). -/
def crc16 (v : CrcVariant) (seed : U16) (s : Bytes) : U16 := s.foldl (crcByte v) seed

/-- The `HQX` register after one data bit (R85). -/
def lfsrHqxBit (c : U16) (d : Bool) : U16 :=
  let fb := c.getLsbD 15 ^^ d
  BitVec.ofFnLE fun k : Fin 16 =>
    if k.val = 0 then fb
    else if k.val = 5 then c.getLsbD 4 ^^ fb
    else if k.val = 12 then c.getLsbD 11 ^^ fb
    else c.getLsbD (k.val - 1)

/-- The `ARC` register after one data bit (R86). -/
def lfsrArcBit (c : U16) (d : Bool) : U16 :=
  let fb := c.getLsbD 0 ^^ d
  BitVec.ofFnLE fun k : Fin 16 =>
    if k.val = 15 then fb
    else if k.val = 13 then c.getLsbD 14 ^^ fb
    else if k.val = 0 then c.getLsbD 1 ^^ fb
    else c.getLsbD (k.val + 1)

/-- The register after one byte, bit by bit: most significant bit first for `HQX` (R85), least significant first for
`ARC` (R86). -/
def lfsrByte (v : CrcVariant) (c : U16) (b : Byte) : U16 :=
  match v with
  | .hqx => [7, 6, 5, 4, 3, 2, 1, 0].foldl (fun c k => lfsrHqxBit c (b.getLsbD k)) c
  | .arc => [0, 1, 2, 3, 4, 5, 6, 7].foldl (fun c k => lfsrArcBit c (b.getLsbD k)) c

/-- The LFSR form of the CRC (R85, R86). -/
def crc16Lfsr (v : CrcVariant) (seed : U16) (s : Bytes) : U16 := s.foldl (lfsrByte v) seed

/-- An entry of the table: `T[i] = CRC16(0x0000, [i])` (R87). -/
def crcTable (v : CrcVariant) (i : Byte) : U16 := crc16 v 0x0000 [i]

/-- The register after one byte by table (R87). -/
def tableByte (v : CrcVariant) (c : U16) (b : Byte) : U16 :=
  match v with
  | .hqx => (c <<< 8) ^^^ crcTable v (hi8 c ^^^ b)
  | .arc => (c >>> 8) ^^^ crcTable v (lo8 c ^^^ b)

/-- The table-driven form of the CRC (R87). -/
def crc16Table (v : CrcVariant) (seed : U16) (s : Bytes) : U16 := s.foldl (tableByte v) seed

end Sys2Proof.Machine
end

