-- ==== Sys2Proof/Syntax.lean ====
section
/-! DEFINITION. The value types of the codec and its operations and wire units, one constructor per row of
spec/opcode_table.json. -/

namespace Sys2Proof

/-- The width of a length field: 1 or 2 bytes (10_state.md R27, `lfw : {1, 2}`). -/
inductive LengthWidth where
  | one
  | two
  deriving DecidableEq, Repr

/-- `FrameFormat` (R27): what the registry holds for a marker. -/
structure FrameFormat where
  lfw : LengthWidth
  crcInit : U16
  deriving DecidableEq, Repr

/-- `Packet` (R27): one logical protocol message. -/
structure Packet where
  framing : U16
  target : Byte
  command : Byte
  payload : Bytes
  deriving DecidableEq, Repr

/-- The rows of the opcode table. The wire units are what the decoder recognizes at the front of `ACC`, with the
fields their formats give them; the port operations are what the host invokes (30_encoding.md R71, R72). -/
inductive Instr where
  /-- `FRAME.SHORT` (43_packet_parser.md R147, format R61). The length field is the payload's length. -/
  | frameShort (target command : Byte) (payload : Bytes) (crc : U16)
  /-- `FRAME.LONG` (R148, format R62). -/
  | frameLong (target command : Byte) (payload : Bytes) (crc : U16)
  /-- `SKIP1` (42_frame_sync_accumulator.md R124, R72): `m` is the pair of bytes at the front. -/
  | skip1 (m : U16)
  /-- `LOOKUP` (40_registry_crc.md R80). -/
  | lookup (m : U16)
  /-- `NEW` (41_packet_serializer.md R100), its operands in the source's order. -/
  | new (command : Byte) (framing : U16) (target : Byte) (payload : Bytes)
  /-- `ENCODE` (R102). -/
  | encode (p : Packet)
  /-- `FEED` (R120). -/
  | feed (chunk : Bytes)
  /-- `RESET` (R132). -/
  | reset
  deriving DecidableEq, Repr

end Sys2Proof
end

