-- ==== Sys2Proof/Machine/Operands.lean ====
section
/-! DEFINITION. The Frame Format Registry and the assembly of a frame's fields (10_state.md R25, 00_scope.md R9,
30_encoding.md R60 to R69, R73, 40_registry_crc.md R80, R81). -/

namespace Sys2Proof

/-- The marker of the short form (R8); on the wire `A5 5A`. -/
def shortMarker : U16 := 0x5AA5

/-- The marker of the long form (R8); on the wire `55 AA`. -/
def longMarker : U16 := 0xAA55

/-- The registry's entry for the short form (R25). -/
def shortFormat : FrameFormat := { lfw := .one, crcInit := 0x0000 }

/-- The registry's entry for the long form (R25). -/
def longFormat : FrameFormat := { lfw := .two, crcInit := 0xFFFF }

/-- The registry: exactly two entries (R25, R69, R80). -/
def registry (m : U16) : Option FrameFormat :=
  if m = longMarker then some longFormat
  else if m = shortMarker then some shortFormat
  else none

/-- The length field's width in bytes (R9 `LFW`). -/
def LengthWidth.bytes : LengthWidth → Nat
  | .one => 1
  | .two => 2

/-- `HEADER_LEN` (R81). -/
def FrameFormat.headerLen (f : FrameFormat) : Nat := 2 + f.lfw.bytes

/-- `MAXLEN` (R81). -/
def FrameFormat.maxLen (f : FrameFormat) : Nat := 2 ^ (8 * f.lfw.bytes) - 1

/-- `MIN_FRAME` (R81). -/
def FrameFormat.minFrame (f : FrameFormat) : Nat := f.headerLen + 4

/-- `PAYLOAD_OFF` (R9). -/
def FrameFormat.payloadOff (f : FrameFormat) : Nat := 2 + f.headerLen

/-- `total_needed` for a declared length, a natural that never wraps (42_frame_sync_accumulator.md R126, R143). -/
def FrameFormat.totalNeeded (f : FrameFormat) (dataLen : Nat) : Nat := 2 + f.headerLen + dataLen + 2

/-- `MAX_FRAME` (R9). -/
def FrameFormat.maxFrame (f : FrameFormat) : Nat := f.totalNeeded f.maxLen

/-- The length field as it stands on the wire (R64, encode). -/
def lengthBytes : LengthWidth → Nat → Bytes
  | .one, n => [lo8OfNat n]
  | .two, n => [lo8OfNat n, hi8OfNat n]

/-- The length field read at offset 4 (R64, decode; R45). -/
def readLength (f : FrameFormat) (acc : Bytes) : Option Nat :=
  match f.lfw with
  | .one => (memRead1 acc 4).map BitVec.toNat
  | .two => (memRead2 acc 4).map BitVec.toNat

/-- A 16-bit field (marker or CRC) as it stands on the wire (R63, R65). -/
def wordBytes (v : U16) : Bytes := [lo8 v, hi8 v]

/-- The bytes the CRC covers: target, command, length field and payload (R66). -/
def coveredBytes (f : FrameFormat) (target command : Byte) (payload : Bytes) : Bytes :=
  [target, command] ++ lengthBytes f.lfw payload.length ++ payload

/-- A whole frame with a given CRC field (R60). -/
def frameBytes (marker : U16) (f : FrameFormat) (target command : Byte) (payload : Bytes) (crc : U16) : Bytes :=
  wordBytes marker ++ coveredBytes f target command payload ++ wordBytes crc

/-- The framing `NEW` takes when it is omitted (R73). -/
def defaultFraming : U16 := shortMarker

/-- The target `NEW` takes when it is omitted (R73). -/
def defaultTarget : Byte := 0

/-- The payload `NEW` takes when it is omitted (R73). -/
def defaultPayload : Bytes := []

end Sys2Proof
end

