-- ==== Sys2Proof/WellFormed.lean ====
section
/-! DEFINITION. What an operand must satisfy for an instruction to exist at all. -/

namespace Sys2Proof

/-- `MAXLEN` of the short form bounds what `FRAME.SHORT` can carry (R147), that of the long form what `FRAME.LONG` can
(R148); `SKIP1` is a pair that is no recognized marker (R72, R124); a `Packet` that exists has a recognized framing
(10_state.md R28 (i), 41_packet_serializer.md R101). A payload beyond `MAXLEN` is no ill-formed `ENCODE`: R103 says what
it answers. -/
def Instr.wf : Instr → Bool
  | .frameShort _ _ payload _ => decide (payload.length ≤ shortFormat.maxLen)
  | .frameLong _ _ payload _ => decide (payload.length ≤ longFormat.maxLen)
  | .skip1 m => (registry m).isNone
  | .lookup _ => true
  | .new _ _ _ _ => true
  | .encode p => (registry p.framing).isSome
  | .feed _ => true
  | .reset => true

end Sys2Proof
end

