-- ==== Sys2Proof/Decode.lean ====
section
/-! DEFINITION. Decoding: one extraction attempt on the bytes at the front of `ACC` (wire units) and the decoding of a
port request; then the encoder; then the host's view of one word. -/

namespace Sys2Proof

/-! ### Wire units -/

/-- The places an extraction attempt can be at (42_frame_sync_accumulator.md R135). -/
inductive Stage where
  | sync
  | header
  | body
  | check
  deriving DecidableEq, Repr

/-- A whole candidate frame with its parsed fields (43_packet_parser.md R140, R141). -/
structure Candidate where
  format : FrameFormat
  marker : U16
  target : Byte
  command : Byte
  payload : Bytes
  crc : U16
  deriving DecidableEq, Repr

/-- What one extraction attempt does, up to the verdict on the CRC: it stops and consumes nothing, it drops one byte
(`m` is the unrecognized pair), or it consumes a whole candidate frame. `rest` is what it leaves in `ACC`. -/
inductive Attempt where
  | wait (stage : Stage)
  | skip (m : U16) (rest : Bytes)
  | frame (c : Candidate) (rest : Bytes)
  deriving DecidableEq, Repr

/-- Steps 3d to 3g of R120 for a recognized marker `m` with format `f`. Step 3c has made sure that the header's bytes
exist and step 3e that the whole frame does (R45), so no read here finds its offset missing
(`Sys2Proof.Laws.attemptFrame_eq`). -/
def attemptFrame (m : U16) (f : FrameFormat) (acc : Bytes) : Attempt :=
  match memRead1 acc 2, memRead1 acc 3, readLength f acc with
  | some target, some command, some dataLen =>
    if accLen acc < f.totalNeeded dataLen then .wait .body
    else
      match memRead2 acc (f.totalNeeded dataLen - 2) with
      | some crc =>
        .frame
          { format := f, marker := m, target := target, command := command,
            payload := memSlice acc f.payloadOff dataLen, crc := crc }
          (accDrop acc (f.totalNeeded dataLen))
      | none => .wait .body
  | _, _, _ => .wait .header

/-- One extraction attempt, steps 3a to 3g of R120, in the order R122 fixes. -/
def attempt (acc : Bytes) : Attempt :=
  match memRead2 acc 0 with
  | none => .wait .sync
  | some m =>
    match registry m with
    | none => .skip m (accDrop acc 1)
    | some f => if accLen acc < f.headerLen + 4 then .wait .header else attemptFrame m f acc

/-- The place an attempt has come to (R135). -/
def Attempt.place : Attempt → Stage
  | .wait stage => stage
  | .skip _ _ => .sync
  | .frame _ _ => .check

/-- The wire unit a candidate frame is: the format's width selects the row (R68, R147, R148). -/
def Candidate.unit (c : Candidate) : Instr :=
  match c.format.lfw with
  | .one => .frameShort c.target c.command c.payload c.crc
  | .two => .frameLong c.target c.command c.payload c.crc

/-- The wire unit at the front of `ACC` and the bytes left behind it; none where the block waits for more bytes. -/
def decodeWire (acc : Bytes) : Option (Instr × Bytes) :=
  match attempt acc with
  | .wait _ => none
  | .skip m rest => some (.skip1 m, rest)
  | .frame c rest => some (c.unit, rest)

/-! ### Port requests

A request is one byte string: a byte whose low three bits are the select code `op` (R71; R72: mask `0x7`), then the
operands in the order of R71's list, little-endian, the last one being the rest of the string. Trailing operands that
have a default (R73, R74) may be omitted. DESIGN CHOICE, unsafe, log 4: the spec gives the select code only. -/

/-- Why a request is no operation. -/
inductive DecodeError where
  /-- The request has no byte, so no select code. -/
  | emptyRequest
  /-- Select codes 5 to 7 (R71: "refused: no operation"). -/
  | unassignedOp (op : BitVec 3)
  /-- The bytes after the select code are not the operands of this operation. -/
  | badOperands (mnemonic : String)
  /-- `ENCODE` of a value whose framing is no key of the registry: no such `Packet` exists (R28 (i), R101). -/
  | notAPacket (framing : U16)
  deriving DecidableEq, Repr

/-- The select code: the low three bits of a request's first byte (R71, R72). -/
def opSelect (b : Byte) : BitVec 3 := b.setWidth 3

/-- The fields of a packet as operands: command, then framing, target, payload, each omitted one at its default
(R73). -/
def decodeFields : Bytes → Option Packet
  | [c] => some { framing := defaultFraming, target := defaultTarget, command := c, payload := defaultPayload }
  | [c, lo, hi] => some { framing := le16 lo hi, target := defaultTarget, command := c, payload := defaultPayload }
  | c :: lo :: hi :: t :: payload => some { framing := le16 lo hi, target := t, command := c, payload := payload }
  | _ => none

/-- `LOOKUP`'s operand. -/
def decodeLookup : Bytes → Except DecodeError Instr
  | [lo, hi] => .ok (.lookup (le16 lo hi))
  | _ => .error (.badOperands "LOOKUP")

/-- `NEW`'s operands. -/
def decodeNew (operands : Bytes) : Except DecodeError Instr :=
  match decodeFields operands with
  | some p => .ok (.new p.command p.framing p.target p.payload)
  | none => .error (.badOperands "NEW")

/-- `ENCODE`'s operand, which must be a packet. -/
def decodeEncode (operands : Bytes) : Except DecodeError Instr :=
  match decodeFields operands with
  | some p =>
    match registry p.framing with
    | some _ => .ok (.encode p)
    | none => .error (.notAPacket p.framing)
  | none => .error (.badOperands "ENCODE")

/-- `RESET` has no operand. -/
def decodeReset : Bytes → Except DecodeError Instr
  | [] => .ok .reset
  | _ => .error (.badOperands "RESET")

/-- A request's operation (R71). -/
def decodePort : Bytes → Except DecodeError Instr
  | [] => .error .emptyRequest
  | b :: operands =>
    match (opSelect b).toNat with
    | 0 => decodeLookup operands
    | 1 => decodeNew operands
    | 2 => decodeEncode operands
    | 3 => .ok (.feed operands)
    | 4 => decodeReset operands
    | _ => .error (.unassignedOp (opSelect b))

/-! ### The encoder -/

/-- The 3-bit select code of each port operation; wire units have none (R71). -/
def Instr.selectCode : Instr → Option (BitVec 3)
  | .frameShort _ _ _ _ => none
  | .frameLong _ _ _ _ => none
  | .skip1 _ => none
  | .lookup _ => some 0
  | .new _ _ _ _ => some 1
  | .encode _ => some 2
  | .feed _ => some 3
  | .reset => some 4

/-- A request's first byte for a select code; the bits above the code are zero. -/
def selectByte (op : BitVec 3) : Byte := op.setWidth 8

/-- A packet's fields as operands, none omitted. -/
def encodeFields (p : Packet) : Bytes :=
  [p.command] ++ wordBytes p.framing ++ [p.target] ++ p.payload

/-- The words of an instruction: a frame's bytes (R61, R62), the unrecognized pair (R72), or a request (R71). -/
def encode : Instr → Bytes
  | .frameShort t c payload crc => frameBytes shortMarker shortFormat t c payload crc
  | .frameLong t c payload crc => frameBytes longMarker longFormat t c payload crc
  | .skip1 m => wordBytes m
  | .lookup m => selectByte 0 :: wordBytes m
  | .new c f t payload =>
    selectByte 1 :: encodeFields { framing := f, target := t, command := c, payload := payload }
  | .encode p => selectByte 2 :: encodeFields p
  | .feed chunk => selectByte 3 :: chunk
  | .reset => [selectByte 4]

/-- Whether an instruction is a wire unit (formats `WIRE-*`) or a port operation (format `PORT`) (R72). -/
def Instr.isWire : Instr → Bool
  | .frameShort _ _ _ _ => true
  | .frameLong _ _ _ _ => true
  | .skip1 _ => true
  | .lookup _ => false
  | .new _ _ _ _ => false
  | .encode _ => false
  | .feed _ => false
  | .reset => false

/-! ### One word of the opcode table -/

/-- The bytes at the front of `ACC` for a wire row's word: the pair, then zeros up to the longest unit whose length
field is zero. -/
def wireTableBytes (w : Nat) : Bytes :=
  [BitVec.ofNat 8 w, BitVec.ofNat 8 (w / 256), 0, 0, 0, 0, 0, 0]

/-- The zero bytes of the operands a request must have (log 4). -/
def requiredOperands (op : BitVec 3) : Bytes :=
  match op.toNat with
  | 0 => [0, 0]
  | 1 => [0]
  | 2 => [0]
  | _ => []

/-- The request for a port row's word. -/
def portTableBytes (w : Nat) : Bytes :=
  BitVec.ofNat 8 w :: requiredOperands (opSelect (BitVec.ofNat 8 w))

/-- The instruction the decoder reads from a row's word: up to 8 bits are a port row, more are a wire row. -/
def decodeTableWord (nbits w : Nat) : Option Instr :=
  if nbits ≤ 8 then
    match decodePort (portTableBytes w) with
    | .ok i => some i
    | .error _ => none
  else (decodeWire (wireTableBytes w)).map Prod.fst

end Sys2Proof
end

