-- ==== Sys2Proof/Machine/State.lean ====
section
/-! DEFINITION. What the block holds, what it returns to the host, and why a step can stop. -/

namespace Sys2Proof.Machine

/-- An entry of a `FEED`'s output sequence `OUT` (10_state.md R29). -/
inductive Event where
  /-- `EvPacket(p)`. -/
  | packet (p : Packet)
  /-- `EvCrcMismatch(computed, received)` (60_exceptions.md R163). -/
  | crcMismatch (computed received : U16)
  /-- `EvSkip(b)` (R165). -/
  | skip (b : Byte)
  deriving DecidableEq, Repr

/-- An error an operation returns in place of its result (R17 `raise`; R160 EC1, EC2). -/
inductive OpError where
  /-- `UnknownFraming(framing)` of `NEW` (R161). -/
  | unknownFraming (framing : U16)
  /-- `PayloadTooLarge(n, MAXLEN)` of `ENCODE` (R162). -/
  | payloadTooLarge (n maxLen : Nat)
  deriving DecidableEq, Repr

/-- The five conditions (R160). -/
inductive Condition where
  | unknownFraming
  | payloadTooLarge
  | crcMismatch
  | insufficientData
  | unrecognizedMarker
  deriving DecidableEq, Repr

/-- What an operation returns to the host (30_encoding.md R71). The model's own record of it, DESIGN CHOICE, safe,
log 5. -/
inductive Reply where
  /-- Nothing: `RESET` returns nothing (R132), and after power-on nothing has been returned. -/
  | nothing
  /-- `LOOKUP`'s result. -/
  | format (f : Option FrameFormat)
  /-- `NEW`'s result. -/
  | packet (p : Packet)
  /-- `ENCODE`'s result, index 0 sent first (20_memory.md R56). -/
  | bytes (frame : Bytes)
  /-- The error of `NEW` or `ENCODE`. -/
  | error (e : OpError)
  /-- `FEED`'s result `OUT`; for a wire unit run by itself, the event it emits. -/
  | events (out : List Event)
  /-- A `FEED` of a finite instance that filled up: `rest` was not accepted and stays with the host (R52). -/
  | backPressure (out : List Event) (rest : Bytes)
  deriving DecidableEq, Repr

/-- The state. `acc` is all the state the spec gives the block (10_state.md R20); the registry is constant (R25) and is
the function `registry`. The other three fields are the model's: the instance's parameters, which no step writes (R26,
log 2), the requests the host has placed (log 3), and what the last operation returned (log 5). -/
structure State where
  /-- `ACC`, index 0 the oldest byte (R21). -/
  acc : Bytes
  /-- The host's requests not taken yet, oldest first (R49). -/
  port : List Bytes
  /-- What the last operation returned. -/
  reply : Reply
  /-- The parameters of this instance (R10 to R12). -/
  cfg : Config
  deriving DecidableEq, Repr

/-- No condition stops the block: "No condition is fatal to the block" (R170), and "no behaviour of this spec is
`any value`, `fault` or `stuck`" (93_implementation_defined.md). So there is no fault, and nobody raises one. -/
inductive Fault where
  deriving DecidableEq, Repr

/-- Why an invocation is refused. -/
inductive Refusal where
  /-- An instruction that has no meaning in this model; raised by `exec`'s arms only, and by none of them now. Safe. -/
  | notModelled (mnemonic : String)
  /-- `NEW` or `ENCODE` on an instance without the encoder: "invoking them is refused (no result, no state change)"
  (41_packet_serializer.md R107). Raised by `execNew` and `execEncode`. Safe. -/
  | encoderAbsent (mnemonic : String)
  /-- `FEED` on an instance whose `ACC_CAPACITY` is finite and below 65543: "smaller capacities are refused"
  (92_eei_decisions.md D8). Raised by `execFeed`. Safe. -/
  | capacityTooSmall (capacity : Nat)
  /-- `ENCODE` of a value whose framing is no key of the registry; no such packet exists (R28 (i), R101), and no
  request decodes to one. Raised by `execEncode` and by `step`. Safe. -/
  | notAPacket (framing : U16)
  /-- Select codes 5 to 7: "refused: no operation" (R71). Raised by `step`. Safe. -/
  | unassignedOp (op : BitVec 3)
  /-- A request whose bytes are not an operation and its operands (the model's own layout, log 4). Raised by `step`.
  Safe. -/
  | malformedRequest (mnemonic : String)
  deriving DecidableEq, Repr

/-- The state after power-on reset (R33, R180, R181): `ACC` is empty. The parameters have their defaults, no request is
waiting and nothing has been returned (DESIGN CHOICE, unsafe, log 2, 3 and 5: fields of the model's own). -/
def State.reset : State :=
  { acc := [], port := [], reply := .nothing, cfg := Config.default }

end Sys2Proof.Machine
end

