-- ==== Sys2Proof/Machine/Flags.lean ====
section
/-! DEFINITION. The block has no flags (10_state.md R24). Its two computed verdicts are here: the CRC validator's
(40_registry_crc.md R92) and the encoder's length check (41_packet_serializer.md R103); and which of the conditions of
60_exceptions.md R160 an output reports. -/

namespace Sys2Proof.Machine

/-- The CRC validator (R92): the computed CRC and whether it equals the received one. -/
def crcValidate (v : CrcVariant) (seed : U16) (covered : Bytes) (rxCrc : U16) : U16 × Bool :=
  (crc16 v seed covered, crc16 v seed covered == rxCrc)

/-- Whether a payload is longer than the length field can say (R103). -/
def payloadTooLong (f : FrameFormat) (payload : Bytes) : Bool := decide (f.maxLen < payload.length)

/-- The reference ordinals `EC1` to `EC5` (R160); they have no encoding on any interface. -/
def Condition.code : Condition → Nat
  | .unknownFraming => 1
  | .payloadTooLarge => 2
  | .crcMismatch => 3
  | .insufficientData => 4
  | .unrecognizedMarker => 5

/-- The condition an event reports; a packet reports none (R160). -/
def Event.condition : Event → Option Condition
  | .packet _ => none
  | .crcMismatch _ _ => some .crcMismatch
  | .skip _ => some .unrecognizedMarker

/-- The condition an operation's error reports (R160). -/
def OpError.condition : OpError → Condition
  | .unknownFraming _ => .unknownFraming
  | .payloadTooLarge _ _ => .payloadTooLarge

end Sys2Proof.Machine
end

