-- ==== Sys2Proof/Machine/Ops.lean ====
section
/-! DEFINITION. The operations the meanings share: answering the host, raising an error, the verdict on a candidate
frame, the extraction loop, serialization, and the fetch of what the next step runs. -/

namespace Sys2Proof.Machine

/-- An operation returns its result; nothing else changes. -/
def State.answer (s : State) (r : Reply) : State := { s with reply := r }

/-- `raise E(info)` (00_scope.md R17, 60_exceptions.md R168): "the operation returns the error `E` in place of its
result, produces no other output and changes no state". There is no saved state and no handler, so there is nothing to
return from (R170): the host may invoke any operation next. -/
def State.raise (s : State) (e : OpError) : State := s.answer (.error e)

/-- Step 3h (43_packet_parser.md R144 to R146): the event a whole candidate frame gives. -/
def judge (v : CrcVariant) (c : Candidate) : Event :=
  let verdict := crcValidate v c.format.crcInit (coveredBytes c.format c.target c.command c.payload) c.crc
  if verdict.2 then
    .packet { framing := c.marker, target := c.target, command := c.command, payload := c.payload }
  else .crcMismatch verdict.1 c.crc

/-- The condition an extraction attempt comes to, the first that holds in the order of R167; none is a packet. -/
def attemptCondition (v : CrcVariant) (acc : Bytes) : Option Condition :=
  match attempt acc with
  | .wait _ => some .insufficientData
  | .skip _ _ => some .unrecognizedMarker
  | .frame c _ => (judge v c).condition

/-- `emit` in front of the events that follow. -/
def emitBefore (e : Event) (r : List Event × Bytes) : List Event × Bytes := (e :: r.1, r.2)

/-- The extraction loop (42_frame_sync_accumulator.md R122) with a bound on its passes: the events in the order they
arise and the bytes left. -/
def extractWithin (v : CrcVariant) : Nat → Bytes → List Event × Bytes
  | 0, acc => ([], acc)
  | n + 1, acc =>
    match attempt acc with
    | .wait _ => ([], acc)
    | .skip m rest => emitBefore (.skip (lo8 m)) (extractWithin v n rest)
    | .frame c rest => emitBefore (judge v c) (extractWithin v n rest)

/-- The extraction loop run to its stop: each pass that consumes removes at least one byte (R128), so as many passes as
there are bytes suffice. -/
def extract (v : CrcVariant) (acc : Bytes) : List Event × Bytes := extractWithin v (accLen acc) acc

/-- Bytes presented one at a time to an instance of finite capacity `cap` (20_memory.md R52): a byte is accepted only
when `|ACC| < cap`. The events, the bytes in `ACC`, and the bytes that were not accepted. -/
def feedSerial (v : CrcVariant) (cap : Nat) (acc : Bytes) : Bytes → List Event × Bytes × Bytes
  | [] => ([], acc, [])
  | b :: bs =>
    if accLen acc < cap then
      let r := extract v (accAppend acc [b])
      let q := feedSerial v cap r.2 bs
      (r.1 ++ q.1, q.2.1, q.2.2)
    else ([], acc, b :: bs)

/-- `FEED` without a bound on the accumulator (R120): append, extract, return every event. -/
def State.absorb (s : State) (chunk : Bytes) : State :=
  let r := extract s.cfg.crcVariant (accAppend s.acc chunk)
  { s with acc := r.2, reply := .events r.1 }

/-- `FEED` on an instance of finite capacity (R52; a chunk of several bytes is presented byte by byte: DESIGN CHOICE,
safe, log 8). The empty chunk appends nothing and the loop still runs (R121). -/
def State.absorbSerial (s : State) (cap : Nat) (chunk : Bytes) : State :=
  match chunk with
  | [] => s.absorb []
  | _ :: _ =>
    let q := feedSerial s.cfg.crcVariant cap s.acc chunk
    { s with
      acc := q.2.1
      reply := if q.2.2.isEmpty then .events q.1 else .backPressure q.1 q.2.2 }

/-- A complete candidate frame of format `f` at the front: consumed whole whatever its CRC (R142), then judged. With
fewer bytes buffered than the frame has the unit stops, nothing is consumed and nothing is emitted (R147, R148). -/
def State.takeFrame (s : State) (c : Candidate) : State :=
  if accLen s.acc < c.format.totalNeeded c.payload.length then s.answer (.events [])
  else
    { s with
      acc := accDrop s.acc (c.format.totalNeeded c.payload.length)
      reply := .events [judge s.cfg.crcVariant c] }

/-- An unrecognized pair at the front: exactly one byte is discarded and reported (R124). With fewer than two bytes the
attempt stops at step 3a (R123). -/
def State.skipByte (s : State) (m : U16) : State :=
  if accLen s.acc < 2 then s.answer (.events [])
  else { s with acc := accDrop s.acc 1, reply := .events [.skip (lo8 m)] }

/-- The five steps of `ENCODE` for a packet whose format is `f` (41_packet_serializer.md R102, R103). -/
def serialize (v : CrcVariant) (f : FrameFormat) (p : Packet) : Except OpError Bytes :=
  if payloadTooLong f p.payload then .error (.payloadTooLarge p.payload.length f.maxLen)
  else
    .ok (frameBytes p.framing f p.target p.command p.payload
      (crc16 v f.crcInit (coveredBytes f p.target p.command p.payload)))

/-- Why a request that does not decode is refused. -/
def refusalOf : DecodeError → Refusal
  | .emptyRequest => .malformedRequest "(empty)"
  | .unassignedOp op => .unassignedOp op
  | .badOperands mnemonic => .malformedRequest mnemonic
  | .notAPacket framing => .notAPacket framing

/-- What the next step does: nothing (the block is at rest), run an instruction, or refuse a request. -/
inductive Fetched where
  | rest
  | run (i : Instr) (s : State)
  | refuse (r : Refusal)
  deriving DecidableEq, Repr

/-- The instruction the next step runs. While the front of `ACC` holds a complete wire unit the extraction loop has not
stopped, and no other operation begins (R49 (i)); DESIGN CHOICE, safe, log 6: no operation leaves `ACC` so. Otherwise
the oldest request is taken off the port. -/
def State.fetch (s : State) : Fetched :=
  match decodeWire s.acc with
  | some (i, _) => .run i s
  | none =>
    match s.port with
    | [] => .rest
    | request :: later =>
      match decodePort request with
      | .ok i => .run i { s with port := later }
      | .error e => .refuse (refusalOf e)

/-- Bytes placed at the front of `ACC`, where the next wire unit is read. -/
def State.placeWire (s : State) (bytes : Bytes) : State := { s with acc := bytes ++ s.acc }

/-- A request placed as the oldest one. It is taken next only if no extraction is due, so an `ACC` that is not at rest
is emptied. -/
def State.placeRequest (s : State) (request : Bytes) : State :=
  { s with
    acc := if (decodeWire s.acc).isSome then [] else s.acc
    port := request :: s.port }

/-- `OUT` without its diagnostics: the source's "sequence of Packet" (60_exceptions.md R169). -/
def packetsOf (out : List Event) : List Packet :=
  out.filterMap fun e =>
    match e with
    | .packet p => some p
    | _ => none

/-- `OUT` without the `EvSkip` entries (R165). -/
def withoutSkips (out : List Event) : List Event :=
  out.filter fun e =>
    match e with
    | .skip _ => false
    | _ => true

end Sys2Proof.Machine
end

