-- ==== Sys2Proof/Machine/Decoder.lean ====
section
/-! DEFINITION. The meanings of `FEED` and `RESET`. -/

namespace Sys2Proof.Machine

/-- `FEED(chunk)` (42_frame_sync_accumulator.md R120 to R129): eager, one atomic transition. With a finite
`ACC_CAPACITY` bytes are taken one at a time (20_memory.md R52), and a capacity below 65543 is refused (D8). -/
def execFeed (chunk : Bytes) (s : State) : Host.Outcome State Fault Refusal :=
  match s.cfg.accCapacity with
  | none => .next (s.absorb chunk)
  | some cap =>
    if cap < Config.minCapacity then .refused (.capacityTooSmall cap) else .next (s.absorbSerial cap chunk)

/-- `RESET` (R132): `ACC <- []`; the bytes discarded are not reported. -/
def execReset (s : State) : Host.Outcome State Fault Refusal := .next { s with acc := [], reply := .nothing }

end Sys2Proof.Machine
end

