-- ==== Sys2Proof/Machine/Registry.lean ====
section
/-! DEFINITION. The meaning of `LOOKUP`. -/

namespace Sys2Proof.Machine

/-- `LOOKUP(m)` (40_registry_crc.md R80): a pure lookup; "none" is a normal result. -/
def execLookup (m : U16) (s : State) : Host.Outcome State Fault Refusal := .next (s.answer (.format (registry m)))

end Sys2Proof.Machine
end

