-- ==== Sys2Proof/Machine/Serializer.lean ====
section
/-! DEFINITION. The meanings of `NEW` and `ENCODE`, present when the instance has the encoder (00_scope.md R12). -/

namespace Sys2Proof.Machine

/-- `NEW(command, framing, target, payload)` (41_packet_serializer.md R100): it does not look at the payload. -/
def execNew (command : Byte) (framing : U16) (target : Byte) (payload : Bytes) (s : State) :
    Host.Outcome State Fault Refusal :=
  if s.cfg.hasEncoder then
    match registry framing with
    | none => .next (s.raise (.unknownFraming framing))
    | some _ =>
      .next (s.answer (.packet { framing := framing, target := target, command := command, payload := payload }))
  else .refused (.encoderAbsent "NEW")

/-- `ENCODE(p)` (R102, R103). A packet that exists has a recognized framing (R101), so the refusal in the middle is met
by no packet. -/
def execEncode (p : Packet) (s : State) : Host.Outcome State Fault Refusal :=
  if s.cfg.hasEncoder then
    match registry p.framing with
    | none => .refused (.notAPacket p.framing)
    | some f =>
      match serialize s.cfg.crcVariant f p with
      | .error e => .next (s.raise e)
      | .ok frame => .next (s.answer (.bytes frame))
  else .refused (.encoderAbsent "ENCODE")

end Sys2Proof.Machine
end

