-- ==== Sys2Proof/Machine/Wire.lean ====
section
/-! DEFINITION. The meanings of the wire units: one pass of the extraction loop each. -/

namespace Sys2Proof.Machine

/-- `FRAME.SHORT` (43_packet_parser.md R147). -/
def execFrameShort (target command : Byte) (payload : Bytes) (crc : U16) (s : State) :
    Host.Outcome State Fault Refusal :=
  .next (s.takeFrame
    { format := shortFormat, marker := shortMarker, target := target, command := command, payload := payload,
      crc := crc })

/-- `FRAME.LONG` (R148). -/
def execFrameLong (target command : Byte) (payload : Bytes) (crc : U16) (s : State) :
    Host.Outcome State Fault Refusal :=
  .next (s.takeFrame
    { format := longFormat, marker := longMarker, target := target, command := command, payload := payload,
      crc := crc })

/-- `SKIP1` (42_frame_sync_accumulator.md R124). -/
def execSkip1 (m : U16) (s : State) : Host.Outcome State Fault Refusal := .next (s.skipByte m)

end Sys2Proof.Machine
end

