-- ==== Sys2Proof/Machine/Dispatch.lean ====
section
/-! DEFINITION. Which meaning each instruction has. -/

namespace Sys2Proof.Machine

/-- The meaning of an instruction in a state. -/
def exec (i : Instr) (s : State) : Host.Outcome State Fault Refusal :=
  match i with
  | .frameShort target command payload crc => Sys2Proof.Machine.execFrameShort target command payload crc s
  | .frameLong target command payload crc => Sys2Proof.Machine.execFrameLong target command payload crc s
  | .skip1 m => Sys2Proof.Machine.execSkip1 m s
  | .lookup m => Sys2Proof.Machine.execLookup m s
  | .new command framing target payload => Sys2Proof.Machine.execNew command framing target payload s
  | .encode p => Sys2Proof.Machine.execEncode p s
  | .feed chunk => Sys2Proof.Machine.execFeed chunk s
  | .reset => Sys2Proof.Machine.execReset s

end Sys2Proof.Machine
end

