-- ==== Sys2Proof/Machine/Step.lean ====
section
/-! DEFINITION. One step of the machine, and the host's way of placing one instruction. -/

namespace Sys2Proof.Machine

/-- One step: run what is fetched; with nothing to run the block is at rest and keeps its state (60_exceptions.md
R177). -/
def step (s : State) : Host.Outcome State Fault Refusal :=
  match s.fetch with
  | .rest => .next s
  | .run i t => exec i t
  | .refuse r => .refused r

/-- `s` with the instruction of a table row's word placed where the next step reads it: up to 8 bits are a port row, a
request; more are a wire row, bytes at the front of `ACC` (log 14). -/
def State.withFetchWord (s : State) (nbits w : Nat) : State :=
  if nbits ≤ 8 then s.placeRequest (portTableBytes w) else s.placeWire (wireTableBytes w)

end Sys2Proof.Machine
end

