-- ==== Sys2Proof/Safety.lean ====
section
/-! DEFINITION. The terms claims are stated in: the quiescent condition, well-formed answers, the invariant, and the
spec's extraction loop written as a relation on byte layouts, apart from the decoder's functions. -/

namespace Sys2Proof.Machine

/-! ### The quiescent invariant and well-formed answers -/

/-- `Q(ACC)` of 10_state.md R31: at most one stray byte, or a recognized marker followed by an incomplete candidate
frame. -/
def quiescent (acc : Bytes) : Bool :=
  match acc with
  | b0 :: b1 :: _ =>
    match registry (le16 b0 b1) with
    | none => false
    | some f =>
      decide (acc.length < 2 + f.lfw.bytes + 4) ||
        match readLength f acc with
        | some dataLen => decide (acc.length < 2 + (2 + f.lfw.bytes) + dataLen + 2)
        | none => false
  | _ => true

/-- The invariants of R28: a recognized framing, and a payload the length field can express. -/
def packetWf (p : Packet) : Bool :=
  match registry p.framing with
  | some f => decide (p.payload.length ≤ f.maxLen)
  | none => false

/-- A packet that `FEED` emits meets both invariants (43_packet_parser.md R150); a reported mismatch is one (R144). -/
def Event.wf : Event → Bool
  | .packet p => packetWf p
  | .crcMismatch computed received => decide (computed ≠ received)
  | .skip _ => true

/-- What an answer must satisfy: `NEW` makes packets of a recognized framing only (R28 (i)), `UnknownFraming` reports
an unrecognized one (R161), `PayloadTooLarge` a length above the limit (R162), `LOOKUP` an entry of the registry. -/
def Reply.wf : Reply → Bool
  | .nothing => true
  | .format none => true
  | .format (some f) => decide (f = shortFormat ∨ f = longFormat)
  | .packet p => (registry p.framing).isSome
  | .bytes frame => decide (shortFormat.minFrame ≤ frame.length ∧ frame.length ≤ longFormat.maxFrame)
  | .error (.unknownFraming framing) => (registry framing).isNone
  | .error (.payloadTooLarge n maxLen) => decide (maxLen < n)
  | .events out => out.all Event.wf
  | .backPressure out _ => out.all Event.wf

/-- The invariant between operations: the block is at rest (R31) and its last answer is well formed. -/
def State.inv (s : State) : Bool := quiescent s.acc && s.reply.wf

/-- The same state on an instance without the encoder (00_scope.md R12). -/
def State.withoutEncoder (s : State) : State := { s with cfg := { s.cfg with hasEncoder := false } }

/-- The same state on an instance whose accumulator has no bound (R11). -/
def State.unbounded (s : State) : State := { s with cfg := { s.cfg with accCapacity := none } }

/-! ### The loop as a relation on byte layouts -/

/-- The value of a little-endian field (R42). -/
def leNat : Bytes → Nat
  | [] => 0
  | b :: rest => b.toNat + 256 * leNat rest

/-- `bytes` is a whole candidate frame laid out as in 20_memory.md R47: marker, target, command, length field,
payload, CRC. -/
structure IsFrame (bytes : Bytes) (marker : U16) (f : FrameFormat) (target command : Byte)
    (lengthField payload : Bytes) (crc : U16) : Prop where
  recognized : registry marker = some f
  width : lengthField.length = f.lfw.bytes
  value : leNat lengthField = payload.length
  layout : ∃ m0 m1 c0 c1, le16 m0 m1 = marker ∧ le16 c0 c1 = crc ∧
    bytes = m0 :: m1 :: target :: command :: (lengthField ++ payload ++ [c0, c1])

/-- The event of a candidate frame, the CRC taken over the bytes that stand on the wire (43_packet_parser.md R144 to
R146). -/
def frameVerdict (v : CrcVariant) (marker : U16) (f : FrameFormat) (target command : Byte)
    (lengthField payload : Bytes) (crc : U16) : Event :=
  let computed := crc16 v f.crcInit (target :: command :: (lengthField ++ payload))
  if computed = crc then
    .packet { framing := marker, target := target, command := command, payload := payload }
  else .crcMismatch computed crc

/-- The loop of 42_frame_sync_accumulator.md R120 from label 3a on: from the bytes buffered, the events emitted and the
bytes left at the stop. -/
inductive Extracts (v : CrcVariant) : Bytes → List Event → Bytes → Prop where
  /-- Steps 3a, 3c, 3e: fewer bytes than the step needs; nothing is consumed. -/
  | stop {acc : Bytes} (h : quiescent acc = true) : Extracts v acc [] acc
  /-- Step 3b: exactly one byte is discarded and reported. -/
  | skip {b0 b1 : Byte} {tail : Bytes} {out : List Event} {left : Bytes}
      (h : registry (le16 b0 b1) = none) (next : Extracts v (b1 :: tail) out left) :
      Extracts v (b0 :: b1 :: tail) (.skip b0 :: out) left
  /-- Steps 3d to 3h: a whole candidate frame is consumed and judged. -/
  | frame {bytes : Bytes} {marker : U16} {f : FrameFormat} {target command : Byte} {lengthField payload : Bytes}
      {crc : U16} {tail : Bytes} {out : List Event} {left : Bytes}
      (h : IsFrame bytes marker f target command lengthField payload crc) (next : Extracts v tail out left) :
      Extracts v (bytes ++ tail) (frameVerdict v marker f target command lengthField payload crc :: out) left

/-- Which bytes a list of events accounts for (20_memory.md R54): a skip for the one byte it reports, a packet or a
mismatch for one whole candidate frame. -/
inductive Accounts (v : CrcVariant) : List Event → Bytes → Prop where
  | nil : Accounts v [] []
  | skip {b : Byte} {out : List Event} {bytes : Bytes} (next : Accounts v out bytes) :
      Accounts v (.skip b :: out) (b :: bytes)
  | frame {bytes : Bytes} {marker : U16} {f : FrameFormat} {target command : Byte} {lengthField payload : Bytes}
      {crc : U16} {out : List Event} {more : Bytes}
      (h : IsFrame bytes marker f target command lengthField payload crc) (next : Accounts v out more) :
      Accounts v (frameVerdict v marker f target command lengthField payload crc :: out) (bytes ++ more)

/-! ### Sequences of operations -/

/-- The event list an answer carries. -/
def Reply.out : Reply → List Event
  | .events out => out
  | .backPressure out _ => out
  | .nothing => []
  | .format _ => []
  | .packet _ => []
  | .bytes _ => []
  | .error _ => []

/-- One `FEED` after another, their outputs concatenated in call order (R49 (iii)); none where one does not complete. -/
def feedAll (s : State) : List Bytes → Option (List Event × State)
  | [] => some ([], s)
  | chunk :: later =>
    match exec (.feed chunk) s with
    | .next t =>
      match feedAll t later with
      | some r => some (t.reply.out ++ r.1, r.2)
      | none => none
    | .fault _ => none
    | .refused _ => none

end Sys2Proof.Machine
end

