-- ==== Sys2Proof/Certificates/Slice0/Obligations.lean ====
section
/-! DEFINITION. The statements about the model, for the provers. Each docstring names the rule of the spec it
formalises; where it rests on a choice of the model, it says so and names the log entry. -/

open Sys2Proof Sys2Proof.Machine

/-! ### Reset and the registry -/

/-- R33, R25: after reset `ACC = []`, which is quiescent, and the registry holds exactly its two entries: every other
key has none. -/
def Obligations.ResetLeavesEmptyAccumulator : Prop :=
  State.reset.acc = [] ∧ quiescent State.reset.acc = true ∧
    registry 0xAA55 = some { lfw := .two, crcInit := 0xFFFF } ∧
    registry 0x5AA5 = some { lfw := .one, crcInit := 0x0000 } ∧
    ∀ m : U16, m ≠ 0xAA55 → m ≠ 0x5AA5 → registry m = none

/-- The model's invariant holds after reset. That `ACC` is quiescent is the spec's (R31, R33); that the last answer is
well formed rests on the model's choice that it is `nothing` before any operation (log 5). -/
def Obligations.ResetMeetsInvariant : Prop := State.reset.inv = true

/-- R132: `RESET` empties `ACC` from every state, reports nothing, and changes nothing else. That the answer is recorded
as `nothing` is the model's (log 5). -/
def Obligations.ResetOperationEmptiesAccumulator : Prop :=
  (∀ s : State, exec .reset s = .next { s with acc := [], reply := .nothing }) ∧
    Instr.selectCode .reset = some 4

/-- R80: `LOOKUP` answers the entry of the two recognized markers and none for every other value; nothing changes but
the answer. -/
def Obligations.LookupAnswersRegistryEntry : Prop :=
  ∀ (m : U16) (s : State),
    exec (.lookup m) s =
        .next { s with
          reply := .format
            (if m = 0xAA55 then some { lfw := .two, crcInit := 0xFFFF }
             else if m = 0x5AA5 then some { lfw := .one, crcInit := 0x0000 }
             else none) } ∧
      (Instr.lookup m).selectCode = some 0

/-- The constants the spec derives for the two formats (its R9 and R81, marked as derived there). -/
def Obligations.FormatConstantsOfBothForms : Prop :=
  ∃ short long, registry 0x5AA5 = some short ∧ registry 0xAA55 = some long ∧
    short.headerLen = 3 ∧ long.headerLen = 4 ∧ short.minFrame = 7 ∧ long.minFrame = 8 ∧
    short.maxLen = 255 ∧ long.maxLen = 65535 ∧ short.maxFrame = 262 ∧ long.maxFrame = 65543 ∧
    short.payloadOff = 5 ∧ long.payloadOff = 6

/-- The spec's inference R131: whatever byte stands before a frame, that byte and the frame's first byte are no
recognized marker. -/
def Obligations.NoStraddlingFalseMarker : Prop :=
  ∀ (b : Byte) (m : U16), (registry m).isSome = true → registry (le16 b (lo8 m)) = none

/-- The spec's inference R152: one flipped bit turns a recognized marker into an unrecognized value. -/
def Obligations.MarkerBitErrorIsUnrecognized : Prop :=
  ∀ (m : U16) (bit : Nat), (registry m).isSome = true → bit < 16 → registry (m ^^^ (1#16 <<< bit)) = none

/-! ### The CRC engine -/

/-- The spec's laws R88 (i) and (ii): the empty message gives the seed, and the CRC streams. -/
def Obligations.CrcStreamsByteByByte : Prop :=
  ∀ (v : CrcVariant) (seed : U16) (a b : Bytes),
    crc16 v seed [] = seed ∧ crc16 v seed (a ++ b) = crc16 v (crc16 v seed a) b

/-- The spec's laws R88 (iii) and (iv): linearity over GF(2), and zero on zeros. -/
def Obligations.CrcIsLinear : Prop :=
  (∀ (v : CrcVariant) (s t : U16) (a b : Bytes), a.length = b.length →
      crc16 v s a ^^^ crc16 v t b = crc16 v (s ^^^ t) (List.zipWith (· ^^^ ·) a b)) ∧
    ∀ (v : CrcVariant) (a : Bytes), (∀ x ∈ a, x = 0) → crc16 v 0 a = 0

/-- The spec's law R88 (v): flipping one bit of a message changes its CRC, whatever the seed. -/
def Obligations.CrcDetectsEverySingleBit : Prop :=
  ∀ (v : CrcVariant) (seed : U16) (a : Bytes) (k bit : Nat), k < a.length → bit < 8 →
    crc16 v seed (a.modify k (· ^^^ (1#8 <<< bit))) ≠ crc16 v seed a

/-- The spec's R85 and R86: the LFSR form gives the same CRC as the bitwise pseudocode. -/
def Obligations.LfsrFormComputesTheCrc : Prop :=
  ∀ (v : CrcVariant) (seed : U16) (s : Bytes), crc16Lfsr v seed s = crc16 v seed s

/-- The spec's R87: the table-driven form gives the same CRC as the bitwise pseudocode. -/
def Obligations.TableFormComputesTheCrc : Prop :=
  ∀ (v : CrcVariant) (seed : U16) (s : Bytes), crc16Table v seed s = crc16 v seed s

/-- The published check values of R89, which the spec marks as general knowledge. -/
def Obligations.CrcCheckValuesReproduced : Prop :=
  let digits : Bytes := [0x31, 0x32, 0x33, 0x34, 0x35, 0x36, 0x37, 0x38, 0x39]
  crc16 .hqx 0x0000 digits = 0x31C3 ∧ crc16 .hqx 0xFFFF digits = 0x29B1 ∧
    crc16 .arc 0x0000 digits = 0xBB3D ∧ crc16 .arc 0xFFFF digits = 0x4B37

/-! ### Construction and serialization -/

/-- R100: with the encoder, `NEW` answers the packet of its four operands when the framing is one of the two markers,
whatever the payload, and `UnknownFraming` otherwise; nothing changes but the answer. Its select code is 1, and the
operands have the defaults given. -/
def Obligations.NewBuildsPacketOrUnknownFraming : Prop :=
  (∀ (command target : Byte) (framing : U16) (payload : Bytes) (s : State), s.cfg.hasEncoder = true →
      (framing = 0xAA55 ∨ framing = 0x5AA5 →
        exec (.new command framing target payload) s =
          .next { s with
            reply := .packet { framing := framing, target := target, command := command, payload := payload } }) ∧
      (framing ≠ 0xAA55 → framing ≠ 0x5AA5 →
        exec (.new command framing target payload) s =
          .next { s with reply := .error (.unknownFraming framing) })) ∧
    (∀ command framing target payload, (Instr.new command framing target payload).selectCode = some 1) ∧
    defaultFraming = 0x5AA5 ∧ defaultTarget = 0x00 ∧ defaultPayload = []

/-- The defaults of R73, one omitted operand at a time, in the model's request layout (log 4). -/
def Obligations.OmittedOperandsTakeDefaults : Prop :=
  ∀ (command lo hi target : Byte),
    decodePort [1, command] = .ok (.new command 0x5AA5 0x00 []) ∧
      decodePort [1, command, lo, hi] = .ok (.new command (le16 lo hi) 0x00 []) ∧
      decodePort [1, command, lo, hi, target] = .ok (.new command (le16 lo hi) target []) ∧
      decodePort [2, command] = .ok (.encode { framing := 0x5AA5, target := 0x00, command := command, payload := [] })

/-- R102: with the encoder and a payload within `MAXLEN`, `ENCODE` answers marker, target, command, length field,
payload and the CRC of the middle part; nothing changes but the answer. -/
def Obligations.EncodeEmitsWireFrame : Prop :=
  ∀ (p : Packet) (f : FrameFormat) (s : State), s.cfg.hasEncoder = true → registry p.framing = some f →
    p.payload.length ≤ f.maxLen →
    let n := p.payload.length
    let lengthField : Bytes :=
      match f.lfw with
      | .one => [BitVec.ofNat 8 n]
      | .two => [BitVec.ofNat 8 (n % 256), BitVec.ofNat 8 (n / 256)]
    let body : Bytes := [p.target, p.command] ++ lengthField ++ p.payload
    let c := crc16 s.cfg.crcVariant f.crcInit body
    exec (.encode p) s =
        .next { s with reply := .bytes ([lo8 p.framing, hi8 p.framing] ++ body ++ [lo8 c, hi8 c]) } ∧
      (Instr.encode p).selectCode = some 2

/-- R103: a payload longer than the length field can say gives `PayloadTooLarge`, no bytes, and no change: above 255
bytes for the short form, above 65535 for the long form. -/
def Obligations.OversizedPayloadIsAnError : Prop :=
  ∀ (p : Packet) (s : State), s.cfg.hasEncoder = true →
    (p.framing = 0x5AA5 → 255 < p.payload.length →
      exec (.encode p) s = .next { s with reply := .error (.payloadTooLarge p.payload.length 255) }) ∧
    (p.framing = 0xAA55 → 65535 < p.payload.length →
      exec (.encode p) s = .next { s with reply := .error (.payloadTooLarge p.payload.length 65535) })

/-- R107: without the encoder `NEW` and `ENCODE` are refused, and `LOOKUP`, `FEED` and `RESET` do what they do with
it. -/
def Obligations.AbsentEncoderIsRefused : Prop :=
  (∀ (s : State) (command : Byte) (framing : U16) (target : Byte) (payload : Bytes) (p : Packet),
      s.cfg.hasEncoder = false →
      exec (.new command framing target payload) s = .refused (.encoderAbsent "NEW") ∧
        exec (.encode p) s = .refused (.encoderAbsent "ENCODE")) ∧
    ∀ (s t : State) (i : Instr), (i = .reset ∨ (∃ m, i = .lookup m) ∨ ∃ chunk, i = .feed chunk) →
      exec i s = .next t → exec i s.withoutEncoder = .next t.withoutEncoder

/-- The spec's inference R101: no packet of an unrecognized framing exists. The model refuses `ENCODE` of such a value
by name (log 11), and no request decodes to one. -/
def Obligations.EncodeOfNoPacketIsRefused : Prop :=
  (∀ (p : Packet) (s : State), s.cfg.hasEncoder = true → registry p.framing = none →
      exec (.encode p) s = .refused (.notAPacket p.framing)) ∧
    ∀ (request : Bytes) (p : Packet), decodePort request = .ok (.encode p) → (registry p.framing).isSome = true

/-- `NEW` and `ENCODE` neither read nor write `ACC` (the spec's inference R104), nor does `LOOKUP` (R80: its state read
and written are none). -/
def Obligations.EncoderIgnoresAccumulator : Prop :=
  ∀ (i : Instr) (s t : State) (other : Bytes),
    ((∃ m, i = .lookup m) ∨ (∃ c f tg p, i = .new c f tg p) ∨ ∃ p, i = .encode p) →
    exec i s = .next t →
    t = { s with reply := t.reply } ∧ exec i { s with acc := other } = .next { t with acc := other }

/-- The spec's inference R105: two packets with the same frame are the same packet. -/
def Obligations.DistinctPacketsHaveDistinctFrames : Prop :=
  ∀ (s : State) (p q : Packet) (frame : Bytes),
    exec (.encode p) s = .next { s with reply := .bytes frame } →
    exec (.encode q) s = .next { s with reply := .bytes frame } → p = q

/-! ### The wire units -/

/-- R147: a whole short-form frame at the front of `ACC` is the unit `FRAME.SHORT` with its fields; running it consumes
`7 + L` bytes whatever the CRC, and emits the packet or the mismatch. With fewer bytes there is no unit, and the unit
stops without effect: below 7 bytes whatever follows the marker, and below `7 + L` once the length byte is there. -/
def Obligations.ShortFrameIsConsumedAndJudged : Prop :=
  (∀ (s : State) (target command len : Byte) (payload rest : Bytes) (c0 c1 : Byte), payload.length = len.toNat →
      s.acc = [0xA5, 0x5A, target, command, len] ++ payload ++ [c0, c1] ++ rest →
      let c := crc16 s.cfg.crcVariant 0x0000 ([target, command, len] ++ payload)
      decodeWire s.acc = some (.frameShort target command payload (le16 c0 c1), rest) ∧
        exec (.frameShort target command payload (le16 c0 c1)) s =
          .next { s with
            acc := rest
            reply := .events
              [if c = le16 c0 c1 then
                .packet { framing := 0x5AA5, target := target, command := command, payload := payload }
               else .crcMismatch c (le16 c0 c1)] }) ∧
    (∀ (s : State) (tail : Bytes), s.acc = 0xA5 :: 0x5A :: tail → s.acc.length < 7 →
      decodeWire s.acc = none ∧ ∀ target command payload crc,
        exec (.frameShort target command payload crc) s = .next { s with reply := .events [] }) ∧
    ∀ (s : State) (target command len : Byte) (tail : Bytes),
      s.acc = [0xA5, 0x5A, target, command, len] ++ tail → s.acc.length < 7 + len.toNat →
      decodeWire s.acc = none ∧ ∀ payload crc, payload.length = len.toNat →
        exec (.frameShort target command payload crc) s = .next { s with reply := .events [] }

/-- R148: the same for the long form, with a two-byte length field, the seed `0xFFFF` and `8 + L` bytes. -/
def Obligations.LongFrameIsConsumedAndJudged : Prop :=
  (∀ (s : State) (target command len0 len1 : Byte) (payload rest : Bytes) (c0 c1 : Byte),
      payload.length = len0.toNat + 256 * len1.toNat →
      s.acc = [0x55, 0xAA, target, command, len0, len1] ++ payload ++ [c0, c1] ++ rest →
      let c := crc16 s.cfg.crcVariant 0xFFFF ([target, command, len0, len1] ++ payload)
      decodeWire s.acc = some (.frameLong target command payload (le16 c0 c1), rest) ∧
        exec (.frameLong target command payload (le16 c0 c1)) s =
          .next { s with
            acc := rest
            reply := .events
              [if c = le16 c0 c1 then
                .packet { framing := 0xAA55, target := target, command := command, payload := payload }
               else .crcMismatch c (le16 c0 c1)] }) ∧
    (∀ (s : State) (tail : Bytes), s.acc = 0x55 :: 0xAA :: tail → s.acc.length < 8 →
      decodeWire s.acc = none ∧ ∀ target command payload crc,
        exec (.frameLong target command payload crc) s = .next { s with reply := .events [] }) ∧
    ∀ (s : State) (target command len0 len1 : Byte) (tail : Bytes),
      s.acc = [0x55, 0xAA, target, command, len0, len1] ++ tail →
      s.acc.length < 8 + (len0.toNat + 256 * len1.toNat) →
      decodeWire s.acc = none ∧ ∀ payload crc, payload.length = len0.toNat + 256 * len1.toNat →
        exec (.frameLong target command payload crc) s = .next { s with reply := .events [] }

/-- R124: an unrecognized pair at the front is the unit `SKIP1`; running it discards exactly one byte, reports it, and
keeps the second byte of the pair; inside `FEED` the loop goes on from there. A recognized pair is no `SKIP1`. -/
def Obligations.UnrecognizedPairSkipsOneByte : Prop :=
  ∀ (s : State) (b0 b1 : Byte) (tail : Bytes), s.acc = b0 :: b1 :: tail →
    (registry (le16 b0 b1) = none →
      decodeWire s.acc = some (.skip1 (le16 b0 b1), b1 :: tail) ∧
        exec (.skip1 (le16 b0 b1)) s = .next { s with acc := b1 :: tail, reply := .events [.skip b0] } ∧
        (s.cfg.accCapacity = none →
          ∃ u out, exec (.feed []) { s with acc := b1 :: tail } = .next u ∧ u.reply = .events out ∧
            exec (.feed []) s = .next { u with reply := .events (.skip b0 :: out) })) ∧
    ((registry (le16 b0 b1)).isSome = true → ∀ m rest, decodeWire s.acc ≠ some (.skip1 m, rest))

/-- What a wire unit run by itself does in every state, also one whose front it does not describe: it takes its own
length off the front and answers one event, or, with fewer bytes, takes nothing and answers none (the model's choice,
log 7). -/
def Obligations.WireUnitsCompleteInEveryState : Prop :=
  ∀ (s : State) (target command : Byte) (payload : Bytes) (crc m : U16),
    (7 + payload.length ≤ s.acc.length →
      ∃ e, exec (.frameShort target command payload crc) s =
          .next { s with acc := s.acc.drop (7 + payload.length), reply := .events [e] } ∧
        (e = .packet { framing := 0x5AA5, target := target, command := command, payload := payload } ∨
          ∃ c, c ≠ crc ∧ e = .crcMismatch c crc)) ∧
    (s.acc.length < 7 + payload.length →
      exec (.frameShort target command payload crc) s = .next { s with reply := .events [] }) ∧
    (8 + payload.length ≤ s.acc.length →
      ∃ e, exec (.frameLong target command payload crc) s =
          .next { s with acc := s.acc.drop (8 + payload.length), reply := .events [e] } ∧
        (e = .packet { framing := 0xAA55, target := target, command := command, payload := payload } ∨
          ∃ c, c ≠ crc ∧ e = .crcMismatch c crc)) ∧
    (s.acc.length < 8 + payload.length →
      exec (.frameLong target command payload crc) s = .next { s with reply := .events [] }) ∧
    (2 ≤ s.acc.length →
      exec (.skip1 m) s = .next { s with acc := s.acc.drop 1, reply := .events [.skip (lo8 m)] }) ∧
    (s.acc.length < 2 → exec (.skip1 m) s = .next { s with reply := .events [] })

/-! ### Decoding and encoding -/

/-- Decoding what the encoder writes for a port operation gives the operation back, every operand at every value (the
operand layout is the model's, log 4). -/
def Obligations.PortRequestsRoundTrip : Prop :=
  ∀ i : Instr, i.wf = true → i.isWire = false → decodePort (encode i) = .ok i

/-- Decoding what the encoder writes for a wire unit gives the unit back, whatever bytes follow it; a frame leaves the
bytes after it, a skip the second byte of its pair as well (formats R61, R62, R72). -/
def Obligations.WireUnitsRoundTrip : Prop :=
  ∀ (i : Instr) (rest : Bytes), i.wf = true → i.isWire = true →
    ((∀ m, i ≠ .skip1 m) → decodeWire (encode i ++ rest) = some (i, rest)) ∧
      ∀ m, i = .skip1 m → decodeWire (encode i ++ rest) = some (i, hi8 m :: rest)

/-- What the decoder reads is well formed, of the right kind, and was written in the bytes read: a wire unit's encoding
stands at the front of `ACC` (R61, R62, R72). For requests it says that only well-formed port operations decode; what a
request is rests on the model's layout (log 4), and that only packets can be encoded on log 11. -/
def Obligations.DecodingReadsOnlyWhatIsWritten : Prop :=
  (∀ (acc rest : Bytes) (i : Instr), decodeWire acc = some (i, rest) →
      i.wf = true ∧ i.isWire = true ∧
        ∃ tail, acc = encode i ++ tail ∧ ((∀ m, i ≠ .skip1 m) → rest = tail) ∧
          ∀ m, i = .skip1 m → rest = hi8 m :: tail) ∧
    ∀ (request : Bytes) (i : Instr), decodePort request = .ok i → i.wf = true ∧ i.isWire = false

/-- A few words written out: three wire units from the spec's encodings (R61, R62, R72; vectors V-E1, V-E4, V-D22), and
three requests, whose select codes are the spec's (R71) and whose byte layout is the model's choice (log 4). -/
def Obligations.KnownWordsDecode : Prop :=
  decodeWire [0xA5, 0x5A, 0x00, 0x01, 0x02, 0x05, 0x00, 0x21, 0xE7] =
      some (.frameShort 0x00 0x01 [0x05, 0x00] 0xE721, []) ∧
    decodeWire [0x55, 0xAA, 0x02, 0x08, 0x04, 0x00, 0xDE, 0xAD, 0xBE, 0xEF, 0xC3, 0xEF] =
      some (.frameLong 0x02 0x08 [0xDE, 0xAD, 0xBE, 0xEF] 0xEFC3, []) ∧
    decodeWire [0x5A, 0xA5, 0x00] = some (.skip1 0xA55A, [0xA5, 0x00]) ∧
    decodePort [0, 0xA5, 0x5A] = .ok (.lookup 0x5AA5) ∧
    decodePort [3, 0x55, 0xAA] = .ok (.feed [0x55, 0xAA]) ∧
    decodePort [4] = .ok .reset

/-! ### FEED -/

/-- R120: `FEED` appends its chunk and runs the loop to its stop: the events and the bytes left are exactly those of the
loop written as a relation on byte layouts, which has one outcome. -/
def Obligations.FeedRunsTheExtractionLoop : Prop :=
  (∀ (s : State) (chunk : Bytes), s.cfg.accCapacity = none →
      ∃ out left, Extracts s.cfg.crcVariant (s.acc ++ chunk) out left ∧
        exec (.feed chunk) s = .next { s with acc := left, reply := .events out } ∧
        ∀ out' left', Extracts s.cfg.crcVariant (s.acc ++ chunk) out' left' → out' = out ∧ left' = left) ∧
    ∀ chunk, (Instr.feed chunk).selectCode = some 3

/-- The spec's quiescent invariant R31: on every allowed instance and from every `ACC` a `FEED` completes, and it leaves
a quiescent `ACC` (an unbounded instance from every `ACC`, a finite one from a quiescent one); the requests waiting and
the parameters stay. -/
def Obligations.FeedCompletesQuiescent : Prop :=
  ∀ (s : State) (chunk : Bytes), s.cfg.wf = true →
    ∃ t, exec (.feed chunk) s = .next t ∧ t.port = s.port ∧ t.cfg = s.cfg ∧
      (s.cfg.accCapacity = none ∨ quiescent s.acc = true → quiescent t.acc = true)

/-- The spec's occupancy bound R32. -/
def Obligations.QuiescentOccupancyIsBounded : Prop :=
  ∀ acc : Bytes, quiescent acc = true →
    acc.length ≤ 65542 ∧ ∀ tail, acc = 0xA5 :: 0x5A :: tail → acc.length ≤ 261

/-- The spec's R133: `FEED([])` on a quiescent `ACC` changes nothing and returns no event. -/
def Obligations.EmptyFeedChangesNothing : Prop :=
  ∀ s : State, s.cfg.wf = true → quiescent s.acc = true →
    exec (.feed []) s = .next { s with reply := .events [] }

/-- The spec's chunk invariance R130: however a stream is cut into chunks, the concatenated events and the final `ACC`
are those of one `FEED` of the whole. -/
def Obligations.ChunkingDoesNotMatter : Prop :=
  ∀ (s : State) (chunks : List Bytes), s.cfg.accCapacity = none → chunks ≠ [] →
    ∃ out t u, feedAll s chunks = some (out, t) ∧ exec (.feed chunks.flatten) s = .next u ∧
      u.reply = .events out ∧ u.acc = t.acc ∧ u.port = t.port ∧ u.cfg = t.cfg

/-- The spec's R52: a finite instance of at least 65543 bytes that is at rest does what the unbounded one does. That a
chunk of several bytes is presented byte by byte is the model's choice (log 8). -/
def Obligations.FiniteInstanceEqualsUnbounded : Prop :=
  ∀ (s : State) (cap : Nat) (chunk : Bytes), s.cfg.accCapacity = some cap → 65543 ≤ cap →
    quiescent s.acc = true →
    ∃ t, exec (.feed chunk) s.unbounded = .next t ∧ exec (.feed chunk) s = .next { t with cfg := s.cfg }

/-- The spec's back-pressure (R52, D8): a byte offered when `|ACC|` has reached the capacity is not accepted and stays
with the host, and a capacity below 65543 is refused. The form of the answer is the model's (log 8). -/
def Obligations.FullInstanceAcceptsNoByte : Prop :=
  ∀ (s : State) (cap : Nat), s.cfg.accCapacity = some cap →
    (65543 ≤ cap → cap ≤ s.acc.length → ∀ b : Byte,
      exec (.feed [b]) s = .next { s with reply := .backPressure [] [b] }) ∧
    (cap < 65543 → ∀ chunk, exec (.feed chunk) s = .refused (.capacityTooSmall cap))

/-- The spec's no loss, no duplication (R54): every byte fed is accounted for by exactly one event, in order, or is
still in `ACC`. -/
def Obligations.NoByteIsLostOrDuplicated : Prop :=
  ∀ (s : State) (chunk : Bytes), s.cfg.accCapacity = none →
    ∃ out t consumed, exec (.feed chunk) s = .next t ∧ t.reply = .events out ∧
      Accounts s.cfg.crcVariant out consumed ∧ consumed ++ t.acc = s.acc ++ chunk

/-- The spec's termination bound R128: each event takes at least one byte. -/
def Obligations.FeedEventsAreBounded : Prop :=
  ∀ (s : State) (chunk : Bytes), s.cfg.accCapacity = none →
    ∃ out t, exec (.feed chunk) s = .next t ∧ t.reply = .events out ∧
      out.length + t.acc.length ≤ s.acc.length + chunk.length

/-- R142, R144, R145, R146: a whole candidate frame in front is removed whole whatever its CRC, before the rest is
looked at; it gives the packet when the CRC over its covered bytes equals its CRC field, the mismatch otherwise, and the
loop goes on with the byte after it. -/
def Obligations.CandidateFrameIsConsumedWhole : Prop :=
  ∀ (s : State) (chunk tail bytes : Bytes) (marker : U16) (f : FrameFormat) (target command : Byte)
    (lengthField payload : Bytes) (crc : U16), s.cfg.accCapacity = none →
    IsFrame bytes marker f target command lengthField payload crc → s.acc ++ chunk = bytes ++ tail →
    let c := crc16 s.cfg.crcVariant f.crcInit ([target, command] ++ lengthField ++ payload)
    ∃ u out, exec (.feed tail) { s with acc := [] } = .next u ∧ u.reply = .events out ∧
      exec (.feed chunk) s =
        .next { u with
          reply := .events
            ((if c = crc then
                .packet { framing := marker, target := target, command := command, payload := payload }
              else .crcMismatch c crc) :: out) }

/-- `FEED` is its wire units run one after another, their events concatenated (R120, R124, R147, R148). -/
def Obligations.FeedIsIteratedWireUnits : Prop :=
  (∀ (s : State) (chunk : Bytes), s.cfg.accCapacity = none →
      exec (.feed chunk) s = exec (.feed []) { s with acc := s.acc ++ chunk }) ∧
    ∀ (s : State) (i : Instr) (rest : Bytes), s.cfg.accCapacity = none → decodeWire s.acc = some (i, rest) →
      ∃ t events u out, exec i s = .next t ∧ t.acc = rest ∧ t.reply = .events events ∧
        exec (.feed []) t = .next u ∧ u.reply = .events out ∧
        exec (.feed []) s = .next { u with reply := .events (events ++ out) }

/-- The spec's hazards R184 (i) and R186: while the candidate frame in front is incomplete, everything fed is held
behind it and nothing is emitted. -/
def Obligations.IncompleteCandidateHoldsEverything : Prop :=
  ∀ (s : State) (b0 b1 : Byte) (tail chunk : Bytes) (f : FrameFormat) (dataLen : Nat), s.cfg.wf = true →
    s.acc = b0 :: b1 :: tail → registry (le16 b0 b1) = some f → readLength f s.acc = some dataLen →
    s.acc.length + chunk.length < f.totalNeeded dataLen →
    exec (.feed chunk) s = .next { s with acc := s.acc ++ chunk, reply := .events [] }

/-- The order of tests within one attempt (the spec's R167): too few bytes, then the marker, then the minimum frame,
then the whole frame, then the CRC, taken over the bytes from offset 2 up to the CRC field as they stand in `ACC`. -/
def Obligations.AttemptTestsInFixedOrder : Prop :=
  ∀ (v : CrcVariant) (acc : Bytes),
    (acc.length < 2 → attemptCondition v acc = some .insufficientData) ∧
    ∀ b0 b1 tail, acc = b0 :: b1 :: tail →
      (registry (le16 b0 b1) = none → attemptCondition v acc = some .unrecognizedMarker) ∧
      ∀ f, registry (le16 b0 b1) = some f →
        (acc.length < f.headerLen + 4 → attemptCondition v acc = some .insufficientData) ∧
        ∀ dataLen, f.headerLen + 4 ≤ acc.length → readLength f acc = some dataLen →
          (acc.length < f.totalNeeded dataLen → attemptCondition v acc = some .insufficientData) ∧
          (f.totalNeeded dataLen ≤ acc.length → ∀ crc, memRead2 acc (f.totalNeeded dataLen - 2) = some crc →
            attemptCondition v acc =
              if crc16 v f.crcInit (memSlice acc 2 (f.totalNeeded dataLen - 4)) = crc then none
              else some .crcMismatch)

/-- The places of the spec's R135: where an attempt stops (SYNC, HEADER or BODY, never CHECK), and that it comes to
CHECK exactly when the whole candidate frame is buffered. -/
def Obligations.AttemptPlacesFollowTheBuffer : Prop :=
  (∀ acc : Bytes, attempt acc = .wait .sync ↔ acc.length < 2) ∧
    (∀ acc : Bytes, attempt acc ≠ .wait .check) ∧
    ∀ (b0 b1 : Byte) (tail acc : Bytes) (f : FrameFormat), acc = b0 :: b1 :: tail →
      registry (le16 b0 b1) = some f →
      (attempt acc = .wait .header ↔ acc.length < f.headerLen + 4) ∧
      ∀ dataLen, f.headerLen + 4 ≤ acc.length → readLength f acc = some dataLen →
        (attempt acc = .wait .body ↔ acc.length < f.totalNeeded dataLen) ∧
        ((attempt acc).place = .check ↔ f.totalNeeded dataLen ≤ acc.length)

/-! ### Encoder and decoder together -/

/-- The round trip (the spec's R106): what `ENCODE` answers, fed to any allowed decoder in the reset state with the same
CRC variant, gives back exactly the packet and leaves `ACC` empty. -/
def Obligations.EncodedPacketIsDecodedBack : Prop :=
  ∀ (s : State) (p : Packet) (f : FrameFormat), s.cfg.hasEncoder = true → registry p.framing = some f →
    p.payload.length ≤ f.maxLen →
    ∃ frame, exec (.encode p) s = .next { s with reply := .bytes frame } ∧
      ∀ r : State, r.acc = [] → r.cfg.wf = true → r.cfg.crcVariant = s.cfg.crcVariant →
        exec (.feed frame) r = .next { r with acc := [], reply := .events [.packet p] }

/-- The converse (the spec's R106 and R150): a packet that `FEED` emits meets the packet invariants, and `ENCODE` of it
answers exactly the bytes consumed for it: they stand after the bytes the earlier events account for and before those of
the later events and the bytes left, and `FEED` from that place on emits this packet first. -/
def Obligations.DecodedPacketReencodesToItsBytes : Prop :=
  ∀ (s t : State) (chunk : Bytes) (earlier later : List Event) (p : Packet), s.cfg.accCapacity = none →
    exec (.feed chunk) s = .next t → t.reply = .events (earlier ++ .packet p :: later) →
    packetWf p = true ∧
      ∃ left frame right, Accounts s.cfg.crcVariant earlier left ∧ Accounts s.cfg.crcVariant later right ∧
        left ++ frame ++ right ++ t.acc = s.acc ++ chunk ∧
        exec (.feed (frame ++ right ++ t.acc)) { s with acc := [] } =
          .next { t with reply := .events (.packet p :: later) } ∧
        ∀ e : State, e.cfg.hasEncoder = true → e.cfg.crcVariant = s.cfg.crcVariant →
          exec (.encode p) e = .next { e with reply := .bytes frame }

/-- The resynchronization guarantee (the spec's R134): garbage that holds no marker, then a valid frame, gives one skip
for each garbage byte in order, then the packet, and the decoder goes on after the frame as if fresh. -/
def Obligations.FrameAfterGarbageIsFound : Prop :=
  ∀ (s e : State) (chunk garbage frame tail : Bytes) (p : Packet), s.cfg.accCapacity = none →
    e.cfg.crcVariant = s.cfg.crcVariant → exec (.encode p) e = .next { e with reply := .bytes frame } →
    s.acc ++ chunk = garbage ++ frame ++ tail →
    (∀ left b0 b1 right, garbage = left ++ b0 :: b1 :: right → registry (le16 b0 b1) = none) →
    ∃ u out, exec (.feed tail) { s with acc := [] } = .next u ∧ u.reply = .events out ∧
      exec (.feed chunk) s = .next { u with reply := .events (garbage.map Event.skip ++ .packet p :: out) }

/-- Tamper detection (the spec's R151): one flipped bit in the target, command, payload or CRC of a valid frame in front
drops exactly that frame with one mismatch, and the decoder goes on after it as if fresh. -/
def Obligations.SingleBitTamperIsDropped : Prop :=
  ∀ (s e : State) (chunk frame tail : Bytes) (p : Packet) (f : FrameFormat) (k bit : Nat),
    s.cfg.accCapacity = none → e.cfg.crcVariant = s.cfg.crcVariant →
    exec (.encode p) e = .next { e with reply := .bytes frame } → registry p.framing = some f →
    k < frame.length → k = 2 ∨ k = 3 ∨ f.payloadOff ≤ k → bit < 8 →
    s.acc ++ chunk = frame.modify k (· ^^^ (1#8 <<< bit)) ++ tail →
    ∃ u out computed received, computed ≠ received ∧
      exec (.feed tail) { s with acc := [] } = .next u ∧ u.reply = .events out ∧
      exec (.feed chunk) s = .next { u with reply := .events (.crcMismatch computed received :: out) }

/-! ### The step -/

/-- A step runs the wire unit that stands at the front of `ACC` (log 6). -/
def Obligations.StepRunsTheWireUnitInFront : Prop :=
  ∀ (s : State) (i : Instr) (rest : Bytes), decodeWire s.acc = some (i, rest) → step s = exec i s

/-- With the block at rest a step takes the oldest request off the port and runs the operation it decodes to; with no
request it changes nothing (log 3). -/
def Obligations.StepRunsTheOldestRequest : Prop :=
  ∀ s : State, decodeWire s.acc = none →
    (∀ request later i, s.port = request :: later → decodePort request = .ok i →
      step s = exec i { s with port := later }) ∧
    (s.port = [] → step s = .next s)

/-- The select codes 5 to 7 are no operation and are refused (the spec's R71). The model's are: that the code is the low
bits of a request's first byte (log 4), that the oldest request is the one looked at (log 3), and that the refusal ends
the run (log 9). -/
def Obligations.UnassignedSelectCodesAreRefused : Prop :=
  ∀ (s : State) (b : Byte) (operands : Bytes) (later : List Bytes), decodeWire s.acc = none →
    s.port = (b :: operands) :: later → 5 ≤ (opSelect b).toNat →
    step s = .refused (.unassignedOp (opSelect b))

/-- Every step keeps the invariant: the block at rest (the spec's R31), its last answer well formed (R28, R150). -/
def Obligations.EveryStepKeepsTheInvariant : Prop :=
  ∀ s t : State, s.inv = true → step s = .next t → t.inv = true

/-- Whole-machine rule (the spec's R26): no step changes the instance's parameters. -/
def Obligations.NoStepChangesTheConfiguration : Prop :=
  ∀ s t : State, step s = .next t → t.cfg = s.cfg

/-- Whole-machine rule (the spec's R20, R46): a step that changes `ACC` ran a wire unit, `FEED` or `RESET`; and no
operation touches the requests still waiting. -/
def Obligations.OnlyDecoderOperationsWriteAccumulator : Prop :=
  ∀ (i : Instr) (s t : State), exec i s = .next t →
    t.port = s.port ∧ t.cfg = s.cfg ∧
      (t.acc ≠ s.acc → i.isWire = true ∨ i = .reset ∨ ∃ chunk, i = .feed chunk)
end

