-- ==== Sys2Proof/Laws/Crc.lean ====
section
/-! SUPPORT. The CRC's unfolding along its bytes. -/

namespace Sys2Proof.Laws

open Sys2Proof.Machine

@[simp] theorem crc16_nil (v : CrcVariant) (seed : U16) : crc16 v seed [] = seed := rfl

@[simp] theorem crc16_cons (v : CrcVariant) (seed : U16) (b : Byte) (s : Bytes) :
    crc16 v seed (b :: s) = crc16 v (crcByte v seed b) s := rfl

theorem xor_cancel_twice (a b k : U16) : (a ^^^ k) ^^^ (b ^^^ k) = a ^^^ b := by
  rw [BitVec.xor_comm b k, BitVec.xor_assoc, ← BitVec.xor_assoc k k b, BitVec.xor_self, BitVec.zero_xor]

/-- One shift is linear over GF(2): the basis of R88 (iii). -/
theorem hqxShift_xor (a b : U16) : hqxShift (a ^^^ b) = hqxShift a ^^^ hqxShift b := by
  unfold hqxShift
  rw [BitVec.getLsbD_xor, BitVec.shiftLeft_xor_distrib]
  cases a.getLsbD 15 <;> cases b.getLsbD 15 <;> simp
  · ac_rfl
  · ac_rfl
  · rw [xor_cancel_twice]

theorem arcShift_xor (a b : U16) : arcShift (a ^^^ b) = arcShift a ^^^ arcShift b := by
  unfold arcShift
  rw [BitVec.getLsbD_xor, BitVec.ushiftRight_xor_distrib]
  cases a.getLsbD 0 <;> cases b.getLsbD 0 <;> simp
  · ac_rfl
  · ac_rfl
  · rw [xor_cancel_twice]

theorem eightTimes_xor {f : U16 → U16} (h : ∀ a b, f (a ^^^ b) = f a ^^^ f b) (a b : U16) :
    eightTimes f (a ^^^ b) = eightTimes f a ^^^ eightTimes f b := by
  simp only [eightTimes, h]

end Sys2Proof.Laws
end

