-- ==== Sys2Proof/Laws/State.lean ====
section
/-! SUPPORT. One lemma per field per update of the state. -/

namespace Sys2Proof.Laws

open Sys2Proof.Machine

variable (s : State) (r : Reply) (e : OpError) (chunk bytes request : Bytes)

@[simp] theorem reset_acc : State.reset.acc = [] := rfl
@[simp] theorem reset_port : State.reset.port = [] := rfl
@[simp] theorem reset_reply : State.reset.reply = .nothing := rfl
@[simp] theorem reset_cfg : State.reset.cfg = Config.default := rfl

@[simp] theorem answer_acc : (s.answer r).acc = s.acc := rfl
@[simp] theorem answer_port : (s.answer r).port = s.port := rfl
@[simp] theorem answer_reply : (s.answer r).reply = r := rfl
@[simp] theorem answer_cfg : (s.answer r).cfg = s.cfg := rfl

@[simp] theorem raise_acc : (s.raise e).acc = s.acc := rfl
@[simp] theorem raise_port : (s.raise e).port = s.port := rfl
@[simp] theorem raise_reply : (s.raise e).reply = .error e := rfl
@[simp] theorem raise_cfg : (s.raise e).cfg = s.cfg := rfl

@[simp] theorem absorb_acc : (s.absorb chunk).acc = (extract s.cfg.crcVariant (s.acc ++ chunk)).2 := rfl
@[simp] theorem absorb_port : (s.absorb chunk).port = s.port := rfl
@[simp] theorem absorb_reply :
    (s.absorb chunk).reply = .events (extract s.cfg.crcVariant (s.acc ++ chunk)).1 := rfl
@[simp] theorem absorb_cfg : (s.absorb chunk).cfg = s.cfg := rfl

@[simp] theorem absorbSerial_port (cap : Nat) : (s.absorbSerial cap chunk).port = s.port := by cases chunk <;> rfl
@[simp] theorem absorbSerial_cfg (cap : Nat) : (s.absorbSerial cap chunk).cfg = s.cfg := by cases chunk <;> rfl

@[simp] theorem takeFrame_port (k : Candidate) : (s.takeFrame k).port = s.port := by
  unfold State.takeFrame
  split <;> rfl

@[simp] theorem takeFrame_cfg (k : Candidate) : (s.takeFrame k).cfg = s.cfg := by
  unfold State.takeFrame
  split <;> rfl

@[simp] theorem skipByte_port (m : U16) : (s.skipByte m).port = s.port := by
  unfold State.skipByte
  split <;> rfl

@[simp] theorem skipByte_cfg (m : U16) : (s.skipByte m).cfg = s.cfg := by
  unfold State.skipByte
  split <;> rfl

@[simp] theorem placeWire_acc : (s.placeWire bytes).acc = bytes ++ s.acc := rfl
@[simp] theorem placeWire_port : (s.placeWire bytes).port = s.port := rfl
@[simp] theorem placeWire_cfg : (s.placeWire bytes).cfg = s.cfg := rfl
@[simp] theorem placeRequest_port : (s.placeRequest request).port = request :: s.port := rfl
@[simp] theorem placeRequest_cfg : (s.placeRequest request).cfg = s.cfg := rfl

/-- A frame that is whole in front is taken off, and its event is the answer. -/
theorem takeFrame_of_le {k : Candidate} (h : k.format.totalNeeded k.payload.length ≤ s.acc.length) :
    s.takeFrame k =
      { s with
        acc := s.acc.drop (k.format.totalNeeded k.payload.length)
        reply := .events [judge s.cfg.crcVariant k] } := by
  simp [State.takeFrame, accLen, accDrop, Nat.not_lt.2 h]

/-- A frame that is not whole yet: nothing is consumed and nothing is emitted. -/
theorem takeFrame_of_lt {k : Candidate} (h : s.acc.length < k.format.totalNeeded k.payload.length) :
    s.takeFrame k = s.answer (.events []) := by
  simp [State.takeFrame, accLen, h]

theorem skipByte_of_le {m : U16} (h : 2 ≤ s.acc.length) :
    s.skipByte m = { s with acc := s.acc.drop 1, reply := .events [.skip (lo8 m)] } := by
  simp [State.skipByte, accLen, accDrop, Nat.not_lt.2 h]

theorem skipByte_of_lt {m : U16} (h : s.acc.length < 2) : s.skipByte m = s.answer (.events []) := by
  simp [State.skipByte, accLen, h]

/-- A finite instance that is given no byte, or has room for each as it comes, accepts all of them. -/
theorem feedSerial_nil (v : CrcVariant) (cap : Nat) (acc : Bytes) : feedSerial v cap acc [] = ([], acc, []) := rfl

theorem feedSerial_room (v : CrcVariant) {cap : Nat} {acc : Bytes} (h : acc.length < cap) (b : Byte) (bs : Bytes) :
    feedSerial v cap acc (b :: bs) =
      ((extract v (acc ++ [b])).1 ++ (feedSerial v cap (extract v (acc ++ [b])).2 bs).1,
        (feedSerial v cap (extract v (acc ++ [b])).2 bs).2.1,
        (feedSerial v cap (extract v (acc ++ [b])).2 bs).2.2) := by
  simp [feedSerial, accLen, accAppend, h]

/-- A full instance accepts nothing: the bytes stay with the host (20_memory.md R52). -/
theorem feedSerial_full (v : CrcVariant) {cap : Nat} {acc : Bytes} (h : cap ≤ acc.length) (b : Byte) (bs : Bytes) :
    feedSerial v cap acc (b :: bs) = ([], acc, b :: bs) := by
  simp [feedSerial, accLen, Nat.not_lt.2 h]

/-- What serialization answers (41_packet_serializer.md R102, R103). -/
theorem serialize_cases (v : CrcVariant) (f : FrameFormat) (p : Packet) :
    (f.maxLen < p.payload.length ∧ serialize v f p = .error (.payloadTooLarge p.payload.length f.maxLen)) ∨
      (p.payload.length ≤ f.maxLen ∧
        serialize v f p =
          .ok (frameBytes p.framing f p.target p.command p.payload
            (crc16 v f.crcInit (coveredBytes f p.target p.command p.payload)))) := by
  by_cases h : f.maxLen < p.payload.length
  · exact .inl ⟨h, by simp [serialize, payloadTooLong, h]⟩
  · exact .inr ⟨Nat.le_of_not_lt h, by simp [serialize, payloadTooLong, h]⟩

end Sys2Proof.Laws
end

