-- ==== Sys2Proof/Laws/Exec.lean ====
section
/-! SUPPORT. What each meaning can answer, said once, and what a step can do. -/

namespace Sys2Proof.Laws

open Sys2Proof.Machine

variable {s t : State}

theorem exec_frameShort {tg c : Byte} {p : Bytes} {crc : U16} :
    exec (.frameShort tg c p crc) s = .next (s.takeFrame ⟨shortFormat, shortMarker, tg, c, p, crc⟩) := rfl

theorem exec_frameLong {tg c : Byte} {p : Bytes} {crc : U16} :
    exec (.frameLong tg c p crc) s = .next (s.takeFrame ⟨longFormat, longMarker, tg, c, p, crc⟩) := rfl

theorem exec_skip1 {m : U16} : exec (.skip1 m) s = .next (s.skipByte m) := rfl

theorem exec_lookup {m : U16} : exec (.lookup m) s = .next (s.answer (.format (registry m))) := rfl

theorem exec_reset : exec .reset s = .next { s with acc := [], reply := .nothing } := rfl

theorem exec_new_cases {c : Byte} {f : U16} {tg : Byte} {p : Bytes} (h : exec (.new c f tg p) s = .next t) :
    s.cfg.hasEncoder = true ∧
      ((registry f = none ∧ t = s.raise (.unknownFraming f)) ∨
        ((registry f).isSome = true ∧ t = s.answer (.packet ⟨f, tg, c, p⟩))) := by
  simp only [exec, execNew] at h
  split at h
  · refine ⟨‹_›, ?_⟩
    split at h <;> cases h <;> simp [*]
  · cases h

theorem exec_encode_cases {p : Packet} (h : exec (.encode p) s = .next t) :
    s.cfg.hasEncoder = true ∧ ∃ f, registry p.framing = some f ∧
      ((f.maxLen < p.payload.length ∧ t = s.raise (.payloadTooLarge p.payload.length f.maxLen)) ∨
        (p.payload.length ≤ f.maxLen ∧
          t = s.answer (.bytes (frameBytes p.framing f p.target p.command p.payload
            (crc16 s.cfg.crcVariant f.crcInit (coveredBytes f p.target p.command p.payload)))))) := by
  simp only [exec, execEncode] at h
  split at h
  · refine ⟨‹_›, ?_⟩
    split at h
    · cases h
    · rename_i f hf
      refine ⟨f, hf, ?_⟩
      obtain ⟨hlt, he⟩ | ⟨hle, he⟩ := serialize_cases s.cfg.crcVariant f p <;> rw [he] at h <;> cases h
      · exact .inl ⟨hlt, rfl⟩
      · exact .inr ⟨hle, rfl⟩
  · cases h

theorem exec_feed_unbounded {chunk : Bytes} (h : s.cfg.accCapacity = none) :
    exec (.feed chunk) s = .next (s.absorb chunk) := by simp [exec, execFeed, h]

theorem exec_feed_bounded {chunk : Bytes} {cap : Nat} (h : s.cfg.accCapacity = some cap)
    (hc : Config.minCapacity ≤ cap) : exec (.feed chunk) s = .next (s.absorbSerial cap chunk) := by
  simp [exec, execFeed, h, Nat.not_lt.2 hc]

theorem exec_feed_cases {chunk : Bytes} (h : exec (.feed chunk) s = .next t) :
    (s.cfg.accCapacity = none ∧ t = s.absorb chunk) ∨
      ∃ cap, s.cfg.accCapacity = some cap ∧ Config.minCapacity ≤ cap ∧ t = s.absorbSerial cap chunk := by
  simp only [exec, execFeed] at h
  split at h
  · cases h
    exact .inl ⟨‹_›, rfl⟩
  · split at h
    · cases h
    · cases h
      exact .inr ⟨_, ‹_›, by omega, rfl⟩

/-- What a step that answers a next state did: rested, ran the wire unit at the front of `ACC`, or took the oldest
request off the port and ran its operation. -/
theorem step_cases (h : step s = .next t) :
    (decodeWire s.acc = none ∧ s.port = [] ∧ t = s) ∨
      (∃ i rest, decodeWire s.acc = some (i, rest) ∧ exec i s = .next t) ∨
      (∃ request later i, decodeWire s.acc = none ∧ s.port = request :: later ∧ decodePort request = .ok i ∧
        exec i { s with port := later } = .next t) := by
  unfold step State.fetch at h
  cases hw : decodeWire s.acc with
  | some u => rw [hw] at h; exact .inr (.inl ⟨u.1, u.2, rfl, h⟩)
  | none =>
    rw [hw] at h
    cases hp : s.port with
    | nil => simp only [hp] at h; cases h; exact .inl ⟨rfl, rfl, rfl⟩
    | cons request later =>
      simp only [hp] at h
      cases hd : decodePort request with
      | ok i => rw [hd] at h; exact .inr (.inr ⟨request, later, i, rfl, rfl, hd, h⟩)
      | error e => rw [hd] at h; cases h

end Sys2Proof.Laws
end

