-- ==== Sys2Proof/Laws/Memory.lean ====
section
/-! SUPPORT. The laws of the byte-level operations: byte order, reads, append, drop, the canonical listing; and the
registry's inversion. -/

namespace Sys2Proof.Laws

/-! ### Byte order -/

theorem toNat_le16 (lo hi : Byte) : (le16 lo hi).toNat = lo.toNat + 256 * hi.toNat := by
  have hlo := lo.isLt
  have hhi := hi.isLt
  have hdisj : (lo.setWidth 16 &&& hi.setWidth 16 <<< 8) = 0#16 := by
    ext i h
    simp only [BitVec.getElem_and, BitVec.getElem_setWidth, BitVec.getElem_shiftLeft, BitVec.getElem_zero]
    by_cases h8 : i < 8
    · simp [h8]
    · simp [BitVec.getLsbD_of_ge lo i (by omega)]
  rw [le16, ← BitVec.add_eq_or_of_and_eq_zero _ _ hdisj]
  simp [BitVec.toNat_shiftLeft, Nat.shiftLeft_eq]
  omega

theorem toNat_lo8 (v : U16) : (lo8 v).toNat = v.toNat % 256 := by simp [lo8]

theorem toNat_hi8 (v : U16) : (hi8 v).toNat = v.toNat / 256 := by
  have := v.isLt
  simp [hi8, Nat.shiftRight_eq_div_pow]
  omega

@[simp] theorem le16_lo8_hi8 (v : U16) : le16 (lo8 v) (hi8 v) = v := by
  apply BitVec.eq_of_toNat_eq
  rw [toNat_le16, toNat_lo8, toNat_hi8]
  omega

@[simp] theorem lo8_le16 (lo hi : Byte) : lo8 (le16 lo hi) = lo := by
  have hlo := lo.isLt
  apply BitVec.eq_of_toNat_eq
  rw [toNat_lo8, toNat_le16]
  omega

@[simp] theorem hi8_le16 (lo hi : Byte) : hi8 (le16 lo hi) = hi := by
  have hlo := lo.isLt
  apply BitVec.eq_of_toNat_eq
  rw [toNat_hi8, toNat_le16]
  omega

theorem toNat_lo8OfNat (n : Nat) : (lo8OfNat n).toNat = n % 256 := by simp [lo8OfNat]

theorem toNat_hi8OfNat (n : Nat) : (hi8OfNat n).toNat = n / 256 % 256 := by simp [hi8OfNat]

/-! ### Reads, append, drop -/

@[simp] theorem memRead2_zero_cons (b0 b1 : Byte) (tail : Bytes) :
    memRead2 (b0 :: b1 :: tail) 0 = some (le16 b0 b1) := rfl

theorem memRead1_isSome (acc : Bytes) (off : Nat) : (memRead1 acc off).isSome = decide (off < acc.length) := by
  by_cases h : off < acc.length <;> simp [memRead1, h]

theorem memRead2_isSome (acc : Bytes) (off : Nat) : (memRead2 acc off).isSome = decide (off + 1 < acc.length) := by
  unfold memRead2
  by_cases h : off + 1 < acc.length
  · have h0 : off < acc.length := by omega
    simp [List.getElem?_eq_getElem h0, h]
  · simp only [List.getElem?_eq_none (Nat.le_of_not_lt h)]
    cases acc[off]? <;> simp [h]

theorem memRead1_append (acc s : Bytes) {off : Nat} (h : off < acc.length) :
    memRead1 (accAppend acc s) off = memRead1 acc off := by
  simp [memRead1, accAppend, List.getElem?_append_left h]

theorem memRead2_append (acc s : Bytes) {off : Nat} (h : off + 1 < acc.length) :
    memRead2 (accAppend acc s) off = memRead2 acc off := by
  simp [memRead2, accAppend, List.getElem?_append_left h, List.getElem?_append_left (Nat.lt_of_succ_lt h)]

/-- Dropping renumbers: the byte at offset `n + k` is at offset `k` afterwards (20_memory.md R41). -/
theorem memRead1_drop (acc : Bytes) (n k : Nat) : memRead1 (accDrop acc n) k = memRead1 acc (n + k) := by
  simp [memRead1, accDrop]

theorem accLen_append (acc s : Bytes) : accLen (accAppend acc s) = accLen acc + accLen s := by
  simp [accLen, accAppend]

theorem accLen_drop (acc : Bytes) (n : Nat) : accLen (accDrop acc n) = accLen acc - n := by
  simp [accLen, accDrop]

/-! ### The canonical listing -/

theorem memCellsFrom_length (k : Nat) (acc : Bytes) : (memCellsFrom k acc).length = acc.length := by
  induction acc generalizing k with
  | nil => rfl
  | cons b rest ih => simp [memCellsFrom, ih]

theorem memCellsFrom_offsets (k : Nat) (acc : Bytes) :
    (memCellsFrom k acc).map Prod.fst = List.range' k acc.length := by
  induction acc generalizing k with
  | nil => rfl
  | cons b rest ih => simp [memCellsFrom, ih, List.range'_succ]

theorem memCellsFrom_bytes (k : Nat) (acc : Bytes) : (memCellsFrom k acc).map Prod.snd = acc := by
  induction acc generalizing k with
  | nil => rfl
  | cons b rest ih => simp [memCellsFrom, ih]

/-- Every byte sequence lists in canonical form, so every memory operation keeps the form. -/
theorem memCells_wf (acc : Bytes) : Memory.wf (memCells acc) = true := by
  simp [Memory.wf, memCells, memCellsFrom_offsets, memCellsFrom_length, List.range_eq_range']

/-- Equal listings are equal memories. -/
theorem memCells_injective {a b : Bytes} (h : memCells a = memCells b) : a = b := by
  rw [← memCellsFrom_bytes 0 a, ← memCellsFrom_bytes 0 b]
  exact congrArg _ h

theorem accAppend_wf (acc s : Bytes) : Memory.wf (memCells (accAppend acc s)) = true := memCells_wf _

theorem accDrop_wf (acc : Bytes) (n : Nat) : Memory.wf (memCells (accDrop acc n)) = true := memCells_wf _

/-! ### The registry -/

theorem registry_eq_some {m : U16} {f : FrameFormat} (h : registry m = some f) :
    (m = longMarker ∧ f = longFormat) ∨ (m = shortMarker ∧ f = shortFormat) := by
  unfold registry at h
  split at h
  · exact .inl ⟨‹_›, (Option.some.inj h).symm⟩
  · split at h
    · exact .inr ⟨‹_›, (Option.some.inj h).symm⟩
    · cases h

@[simp] theorem registry_short : registry shortMarker = some shortFormat := by decide

@[simp] theorem registry_long : registry longMarker = some longFormat := by decide

/-! ### Length fields -/

theorem lengthBytes_length (w : LengthWidth) (n : Nat) : (lengthBytes w n).length = w.bytes := by
  cases w <;> rfl

@[simp] theorem shortFormat_headerLen : shortFormat.headerLen = 3 := rfl

@[simp] theorem longFormat_headerLen : longFormat.headerLen = 4 := rfl

@[simp] theorem shortFormat_maxLen : shortFormat.maxLen = 255 := by decide

@[simp] theorem longFormat_maxLen : longFormat.maxLen = 65535 := by decide

theorem totalNeeded_eq (f : FrameFormat) (n : Nat) : f.totalNeeded n = f.headerLen + 4 + n := by
  unfold FrameFormat.totalNeeded
  omega

theorem coveredBytes_length (f : FrameFormat) (t c : Byte) (payload : Bytes) :
    (coveredBytes f t c payload).length = f.headerLen + payload.length := by
  simp [coveredBytes, lengthBytes_length, FrameFormat.headerLen]
  omega

theorem frameBytes_length (m : U16) (f : FrameFormat) (t c : Byte) (payload : Bytes) (crc : U16) :
    (frameBytes m f t c payload crc).length = f.totalNeeded payload.length := by
  simp [frameBytes, wordBytes, coveredBytes_length, totalNeeded_eq]
  omega

end Sys2Proof.Laws
end

