-- ==== Sys2Proof/Laws/Extract.lean ====
section
/-! SUPPORT. What one extraction attempt and the extraction loop can do, said once: the attempt's three outcomes on byte
layouts, and the loop's equations. -/

namespace Sys2Proof.Laws

open Sys2Proof.Machine

/-! ### One attempt -/

theorem attempt_nil : attempt [] = .wait .sync := rfl

theorem attempt_singleton (b : Byte) : attempt [b] = .wait .sync := rfl

theorem attempt_cons_cons (b0 b1 : Byte) (tail : Bytes) :
    attempt (b0 :: b1 :: tail) =
      match registry (le16 b0 b1) with
      | none => .skip (le16 b0 b1) (b1 :: tail)
      | some f =>
        if tail.length + 2 < f.headerLen + 4 then .wait .header
        else attemptFrame (le16 b0 b1) f (b0 :: b1 :: tail) := by
  simp only [attempt, memRead2_zero_cons, accDrop, accLen, List.drop_one, List.tail_cons, List.length_cons]
  rfl

theorem readLength_isSome {f : FrameFormat} {acc : Bytes} (h : f.headerLen + 4 ≤ acc.length) :
    (readLength f acc).isSome = true := by
  unfold FrameFormat.headerLen at h
  unfold readLength
  cases f.lfw <;> simp [LengthWidth.bytes] at h ⊢
  · simp [memRead1_isSome]; omega
  · simp [memRead2_isSome]; omega

/-- Once step 3c has passed, no read of `attemptFrame` finds its offset missing (20_memory.md R45). -/
theorem attemptFrame_eq {m : U16} {f : FrameFormat} {acc : Bytes} (h : f.headerLen + 4 ≤ acc.length) :
    ∃ target command dataLen, memRead1 acc 2 = some target ∧ memRead1 acc 3 = some command ∧
      readLength f acc = some dataLen ∧
      ((acc.length < f.totalNeeded dataLen ∧ attemptFrame m f acc = .wait .body) ∨
        (f.totalNeeded dataLen ≤ acc.length ∧
          ∃ crc, memRead2 acc (f.totalNeeded dataLen - 2) = some crc ∧
            attemptFrame m f acc =
              .frame ⟨f, m, target, command, memSlice acc f.payloadOff dataLen, crc⟩
                (accDrop acc (f.totalNeeded dataLen)))) := by
  have hlen : 6 ≤ acc.length := by
    unfold FrameFormat.headerLen at h
    omega
  obtain ⟨t, ht⟩ := Option.isSome_iff_exists.1 ((memRead1_isSome acc 2).trans (decide_eq_true (by omega)))
  obtain ⟨c, hc⟩ := Option.isSome_iff_exists.1 ((memRead1_isSome acc 3).trans (decide_eq_true (by omega)))
  obtain ⟨n, hn⟩ := Option.isSome_iff_exists.1 (readLength_isSome h)
  refine ⟨t, c, n, ht, hc, hn, ?_⟩
  by_cases hw : acc.length < f.totalNeeded n
  · exact .inl ⟨hw, by simp [attemptFrame, ht, hc, hn, accLen, hw]⟩
  · have hsub : f.totalNeeded n - 2 + 1 < acc.length := by
      unfold FrameFormat.totalNeeded at hw ⊢
      omega
    obtain ⟨crc, hcrc⟩ :=
      Option.isSome_iff_exists.1 ((memRead2_isSome acc (f.totalNeeded n - 2)).trans (decide_eq_true hsub))
    exact .inr ⟨by omega, crc, hcrc, by simp [attemptFrame, ht, hc, hn, accLen, hw, hcrc]⟩

/-! ### Layouts -/

theorem leNat_lengthBytes {w : LengthWidth} {lengthField : Bytes} (h : lengthField.length = w.bytes) :
    lengthField = lengthBytes w (leNat lengthField) := by
  cases w
  · obtain ⟨a, rfl⟩ := List.length_eq_one_iff.1 h
    simp only [lengthBytes, leNat, List.cons.injEq, and_true]
    apply BitVec.eq_of_toNat_eq
    rw [toNat_lo8OfNat]
    have := a.isLt
    omega
  · obtain ⟨a, b, rfl⟩ := List.length_eq_two.1 h
    have ha := a.isLt
    have hb := b.isLt
    simp only [lengthBytes, leNat, List.cons.injEq, and_true]
    constructor <;> apply BitVec.eq_of_toNat_eq
    · rw [toNat_lo8OfNat]; omega
    · rw [toNat_hi8OfNat]; omega

theorem leNat_of_lengthBytes {w : LengthWidth} {n : Nat} (h : n < 2 ^ (8 * w.bytes)) :
    leNat (lengthBytes w n) = n := by
  cases w <;> simp [lengthBytes, leNat, LengthWidth.bytes, toNat_lo8OfNat, toNat_hi8OfNat] at h ⊢ <;> omega

theorem leNat_lt {lengthField : Bytes} : leNat lengthField < 2 ^ (8 * lengthField.length) := by
  induction lengthField with
  | nil => decide
  | cons b rest ih =>
    have hb := b.isLt
    have hp : 2 ^ (8 * (rest.length + 1)) = 256 * 2 ^ (8 * rest.length) := by
      rw [Nat.mul_add, Nat.pow_add]
      omega
    simp only [leNat, List.length_cons, hp]
    omega

theorem isFrame_lengthField_eq {bytes : Bytes} {m : U16} {f : FrameFormat} {t c : Byte} {lengthField payload : Bytes}
    {crc : U16} (h : IsFrame bytes m f t c lengthField payload crc) :
    lengthField = lengthBytes f.lfw payload.length := by
  rw [← h.value]
  exact leNat_lengthBytes h.width

theorem isFrame_payload_le {bytes : Bytes} {m : U16} {f : FrameFormat} {t c : Byte} {lengthField payload : Bytes}
    {crc : U16} (h : IsFrame bytes m f t c lengthField payload crc) : payload.length ≤ f.maxLen := by
  have := leNat_lt (lengthField := lengthField)
  rw [h.value, h.width] at this
  unfold FrameFormat.maxLen
  omega

/-- A candidate frame's bytes are those of `frameBytes`. -/
theorem isFrame_bytes_eq {bytes : Bytes} {m : U16} {f : FrameFormat} {t c : Byte} {lengthField payload : Bytes}
    {crc : U16} (h : IsFrame bytes m f t c lengthField payload crc) : bytes = frameBytes m f t c payload crc := by
  obtain ⟨m0, m1, c0, c1, rfl, rfl, rfl⟩ := h.layout
  simp [frameBytes, wordBytes, coveredBytes, isFrame_lengthField_eq h]

theorem isFrame_frameBytes {m : U16} {f : FrameFormat} (hm : registry m = some f) (t c : Byte) {payload : Bytes}
    (hp : payload.length ≤ f.maxLen) (crc : U16) :
    IsFrame (frameBytes m f t c payload crc) m f t c (lengthBytes f.lfw payload.length) payload crc where
  recognized := hm
  width := lengthBytes_length _ _
  value := leNat_of_lengthBytes (by
    have : 0 < 2 ^ (8 * f.lfw.bytes) := Nat.two_pow_pos _
    unfold FrameFormat.maxLen at hp
    omega)
  layout := ⟨lo8 m, hi8 m, lo8 crc, hi8 crc, by simp, by simp, by simp [frameBytes, wordBytes, coveredBytes]⟩

theorem judge_eq_frameVerdict (v : CrcVariant) (m : U16) (f : FrameFormat) (t c : Byte) (payload : Bytes) (crc : U16) :
    judge v ⟨f, m, t, c, payload, crc⟩ = frameVerdict v m f t c (lengthBytes f.lfw payload.length) payload crc := by
  simp only [judge, crcValidate, frameVerdict, coveredBytes, beq_iff_eq, List.cons_append, List.nil_append]

theorem isFrame_judge_eq {bytes : Bytes} {m : U16} {f : FrameFormat} {t c : Byte} {lengthField payload : Bytes}
    {crc : U16} (h : IsFrame bytes m f t c lengthField payload crc) (v : CrcVariant) :
    judge v ⟨f, m, t, c, payload, crc⟩ = frameVerdict v m f t c lengthField payload crc := by
  rw [judge_eq_frameVerdict, isFrame_lengthField_eq h]

theorem memRead2_append_cons (left : Bytes) (lo hi : Byte) (right : Bytes) :
    memRead2 (left ++ lo :: hi :: right) left.length = some (le16 lo hi) := by
  simp [memRead2]

theorem memSlice_append (left middle right : Bytes) :
    memSlice (left ++ (middle ++ right)) left.length middle.length = middle := by
  simp [memSlice]

theorem readLength_layout {f : FrameFormat} {lengthField : Bytes} (h : lengthField.length = f.lfw.bytes)
    (m0 m1 t c : Byte) (right : Bytes) :
    readLength f (m0 :: m1 :: t :: c :: (lengthField ++ right)) = some (leNat lengthField) := by
  unfold readLength
  cases hw : f.lfw <;> rw [hw] at h
  · obtain ⟨a, rfl⟩ := List.length_eq_one_iff.1 h
    simp [memRead1, leNat]
  · obtain ⟨a, b, rfl⟩ := List.length_eq_two.1 h
    simp [memRead2, leNat, toNat_le16]

/-- An attempt on a whole candidate frame consumes exactly its bytes (43_packet_parser.md R142). -/
theorem attempt_frame {bytes : Bytes} {m : U16} {f : FrameFormat} {t c : Byte} {lengthField payload : Bytes}
    {crc : U16} (h : IsFrame bytes m f t c lengthField payload crc) (tail : Bytes) :
    attempt (bytes ++ tail) = .frame ⟨f, m, t, c, payload, crc⟩ tail := by
  obtain ⟨m0, m1, c0, c1, rfl, rfl, hb⟩ := h.layout
  have hacc : bytes ++ tail = m0 :: m1 :: t :: c :: (lengthField ++ (payload ++ c0 :: c1 :: tail)) := by simp [hb]
  have hbytes : bytes = (m0 :: m1 :: t :: c :: (lengthField ++ payload)) ++ [c0, c1] := by simp [hb]
  have hlen : (bytes ++ tail).length = f.totalNeeded payload.length + tail.length := by
    simp [hacc, totalNeeded_eq, FrameFormat.headerLen, h.width]
    omega
  have htotal : (m0 :: m1 :: t :: c :: (lengthField ++ payload)).length = f.totalNeeded payload.length - 2 := by
    simp [FrameFormat.totalNeeded, FrameFormat.headerLen, h.width]
    omega
  have hoff : (m0 :: m1 :: t :: c :: lengthField).length = f.payloadOff := by
    simp [FrameFormat.payloadOff, FrameFormat.headerLen, h.width]
    omega
  have hdrop : accDrop (bytes ++ tail) (f.totalNeeded payload.length) = tail := by
    have : bytes.length = f.totalNeeded payload.length := by
      have := hlen
      simp at this
      omega
    simp [accDrop, ← this]
  have hcrc : memRead2 (bytes ++ tail) (f.totalNeeded payload.length - 2) = some (le16 c0 c1) := by
    rw [← htotal, hbytes, List.append_assoc]
    exact memRead2_append_cons _ _ _ _
  have hslice : memSlice (bytes ++ tail) f.payloadOff payload.length = payload := by
    rw [← hoff, hacc]
    exact memSlice_append (m0 :: m1 :: t :: c :: lengthField) _ _
  have hread : readLength f (bytes ++ tail) = some payload.length := by
    rw [hacc, readLength_layout h.width, h.value]
  have h2 : memRead1 (bytes ++ tail) 2 = some t := by rw [hacc]; rfl
  have h3 : memRead1 (bytes ++ tail) 3 = some c := by rw [hacc]; rfl
  have hm : memRead2 (bytes ++ tail) 0 = some (le16 m0 m1) := by rw [hacc]; rfl
  have hge : ¬ (bytes ++ tail).length < f.headerLen + 4 := by
    rw [hlen, totalNeeded_eq]
    omega
  have hge' : ¬ (bytes ++ tail).length < f.totalNeeded payload.length := by omega
  simp only [attempt, hm, h.recognized, accLen, hge, if_false, attemptFrame, h2, h3, hread, hge', hcrc, hslice, hdrop]

/-- Bytes long enough for the frame their header declares begin with a whole candidate frame. -/
theorem exists_isFrame {m0 m1 t c : Byte} {body : Bytes} {f : FrameFormat} {n : Nat}
    (hf : registry (le16 m0 m1) = some f) (hlen : f.lfw.bytes + 2 ≤ body.length)
    (hn : readLength f (m0 :: m1 :: t :: c :: body) = some n) (htot : f.lfw.bytes + n + 2 ≤ body.length) :
    ∃ bytes lengthField payload crc rest, IsFrame bytes (le16 m0 m1) f t c lengthField payload crc ∧
      m0 :: m1 :: t :: c :: body = bytes ++ rest := by
  have hfield : (body.take f.lfw.bytes).length = f.lfw.bytes := by
    rw [List.length_take]
    omega
  rw [← List.take_append_drop f.lfw.bytes body, readLength_layout hfield, Option.some.injEq] at hn
  have hpay : ((body.drop f.lfw.bytes).take n).length = n := by
    rw [List.length_take, List.length_drop]
    omega
  have hrest : 2 ≤ ((body.drop f.lfw.bytes).drop n).length := by
    rw [List.length_drop, List.length_drop]
    omega
  obtain ⟨c0, c1, rest, hd⟩ : ∃ c0 c1 rest, (body.drop f.lfw.bytes).drop n = c0 :: c1 :: rest := by
    match h : (body.drop f.lfw.bytes).drop n, hrest with
    | c0 :: c1 :: rest, _ => exact ⟨c0, c1, rest, rfl⟩
  refine ⟨_, body.take f.lfw.bytes, (body.drop f.lfw.bytes).take n, le16 c0 c1, rest,
    ⟨hf, hfield, by rw [hn, hpay], m0, m1, c0, c1, rfl, rfl, rfl⟩, ?_⟩
  have hbody : body =
      body.take f.lfw.bytes ++ ((body.drop f.lfw.bytes).take n ++ (body.drop f.lfw.bytes).drop n) := by simp
  rw [hd] at hbody
  conv_lhs => rw [hbody]
  simp

/-- A frame outcome is a whole candidate frame in front of what is left. -/
theorem attempt_frame_inv {acc rest : Bytes} {k : Candidate} (h : attempt acc = .frame k rest) :
    ∃ bytes lengthField, IsFrame bytes k.marker k.format k.target k.command lengthField k.payload k.crc ∧
      acc = bytes ++ rest := by
  have h0 := h
  match acc, h with
  | [], h => cases h
  | [_], h => cases h
  | m0 :: m1 :: tail, h =>
    rw [attempt_cons_cons] at h
    split at h
    · cases h
    · rename_i f hf
      split at h
      · cases h
      · rename_i hge
        have hlen : f.headerLen + 4 ≤ (m0 :: m1 :: tail).length := by
          simp only [List.length_cons]
          omega
        obtain ⟨_, _, n, -, -, hn, ⟨_, hw⟩ | ⟨htot, -⟩⟩ := attemptFrame_eq (m := le16 m0 m1) hlen
        · rw [hw] at h
          cases h
        · simp only [FrameFormat.headerLen] at hlen
          match tail, hn, htot, hlen, h0 with
          | t :: c :: body, hn, htot, hlen, h0 =>
            simp only [FrameFormat.totalNeeded, FrameFormat.headerLen, List.length_cons] at htot hlen
            obtain ⟨bytes, lengthField, payload, crc, rest', hframe, hacc⟩ :=
              exists_isFrame hf (by omega) hn (by omega)
            rw [hacc, attempt_frame hframe] at h0
            cases h0
            exact ⟨bytes, lengthField, hframe, hacc⟩

/-- A skip outcome is an unrecognized pair in front; exactly one byte is consumed (42_frame_sync_accumulator.md
R124). -/
theorem attempt_skip_inv {acc rest : Bytes} {m : U16} (h : attempt acc = .skip m rest) :
    ∃ b0 b1 tail, m = le16 b0 b1 ∧ registry m = none ∧ acc = b0 :: b1 :: tail ∧ rest = b1 :: tail := by
  match acc, h with
  | [], h => cases h
  | [_], h => cases h
  | b0 :: b1 :: tail, h =>
    rw [attempt_cons_cons] at h
    split at h
    · cases h
      exact ⟨b0, b1, tail, rfl, ‹_›, rfl, rfl⟩
    · rename_i f hf
      split at h
      · cases h
      · rename_i hge
        obtain ⟨_, _, _, -, -, -, ⟨-, hw⟩ | ⟨-, _, -, hw⟩⟩ :=
          attemptFrame_eq (m := le16 b0 b1) (f := f) (acc := b0 :: b1 :: tail) (by simp; omega)
        · rw [hw] at h; cases h
        · rw [hw] at h; cases h

theorem attempt_skip {b0 b1 : Byte} (h : registry (le16 b0 b1) = none) (tail : Bytes) :
    attempt (b0 :: b1 :: tail) = .skip (le16 b0 b1) (b1 :: tail) := by
  rw [attempt_cons_cons, h]

/-- An attempt waits exactly when the accumulator is quiescent (10_state.md R31). -/
theorem attempt_wait_iff (acc : Bytes) : (∃ stage, attempt acc = .wait stage) ↔ quiescent acc = true := by
  match acc with
  | [] => exact ⟨fun _ => rfl, fun _ => ⟨_, rfl⟩⟩
  | [b] => exact ⟨fun _ => rfl, fun _ => ⟨_, rfl⟩⟩
  | b0 :: b1 :: tail =>
    simp only [quiescent, attempt_cons_cons]
    cases hf : registry (le16 b0 b1) with
    | none => simp
    | some f =>
      by_cases hlt : tail.length + 2 < f.headerLen + 4
      · have : (b0 :: b1 :: tail).length < 2 + f.lfw.bytes + 4 := by
          simpa [FrameFormat.headerLen] using hlt
        simp [hlt]
        left
        simpa using this
      · have hlen : f.headerLen + 4 ≤ (b0 :: b1 :: tail).length := by simp; omega
        obtain ⟨t, c, n, -, -, hn, ⟨hlt', hw⟩ | ⟨hge, crc, -, hw⟩⟩ := attemptFrame_eq (m := le16 b0 b1) hlen
        · have : (b0 :: b1 :: tail).length < 2 + (2 + f.lfw.bytes) + n + 2 := hlt'
          simp only [hlt, if_false, hw, hn, this, decide_true, Bool.or_true]
          simp
        · have h1 : ¬ (b0 :: b1 :: tail).length < 2 + (2 + f.lfw.bytes) + n + 2 := Nat.not_lt.2 hge
          have h2 : ¬ (b0 :: b1 :: tail).length < 2 + f.lfw.bytes + 4 := Nat.not_lt.2 hlen
          simp only [hlt, if_false, hw, hn, h1, h2, decide_false, Bool.or_false]
          simp

theorem decodeWire_eq_none_iff (acc : Bytes) : decodeWire acc = none ↔ quiescent acc = true := by
  rw [← attempt_wait_iff]
  unfold decodeWire
  cases attempt acc <;> simp

/-- Every outcome that consumes leaves fewer bytes (R128). -/
theorem attempt_skip_length {acc rest : Bytes} {m : U16} (h : attempt acc = .skip m rest) :
    acc.length = rest.length + 1 := by
  obtain ⟨_, _, _, -, -, rfl, rfl⟩ := attempt_skip_inv h
  simp

theorem isFrame_length {bytes : Bytes} {m : U16} {f : FrameFormat} {t c : Byte} {lengthField payload : Bytes}
    {crc : U16} (h : IsFrame bytes m f t c lengthField payload crc) : bytes.length = f.totalNeeded payload.length := by
  rw [isFrame_bytes_eq h, frameBytes_length]

theorem attempt_frame_length {acc rest : Bytes} {k : Candidate} (h : attempt acc = .frame k rest) :
    rest.length + 7 ≤ acc.length := by
  obtain ⟨bytes, lf, hf, rfl⟩ := attempt_frame_inv h
  have := isFrame_length hf
  rw [totalNeeded_eq] at this
  obtain ⟨-, hk⟩ | ⟨-, hk⟩ := registry_eq_some hf.recognized <;> rw [hk] at this <;>
    simp at this ⊢ <;> omega

/-- A decision that consumes bytes depends on the bytes it consumed and is the same whatever follows them (R130). -/
theorem attempt_skip_append {acc rest : Bytes} {m : U16} (h : attempt acc = .skip m rest) (more : Bytes) :
    attempt (acc ++ more) = .skip m (rest ++ more) := by
  obtain ⟨b0, b1, tail, rfl, hr, rfl, rfl⟩ := attempt_skip_inv h
  exact attempt_skip hr (tail ++ more)

theorem attempt_frame_append {acc rest : Bytes} {k : Candidate} (h : attempt acc = .frame k rest) (more : Bytes) :
    attempt (acc ++ more) = .frame k (rest ++ more) := by
  obtain ⟨bytes, lf, hf, rfl⟩ := attempt_frame_inv h
  rw [List.append_assoc]
  exact attempt_frame hf _

/-! ### The loop -/

theorem extractWithin_eq_extract (v : CrcVariant) {n : Nat} {acc : Bytes} (h : acc.length ≤ n) :
    extractWithin v n acc = extract v acc := by
  have key : ∀ n m acc, acc.length ≤ n → acc.length ≤ m → extractWithin v n acc = extractWithin v m acc := by
    intro n
    induction n with
    | zero =>
      intro m acc hn _
      obtain rfl := List.eq_nil_of_length_eq_zero (Nat.le_zero.1 hn)
      cases m <;> simp [extractWithin, attempt_nil]
    | succ n ih =>
      intro m acc hn hm
      cases m with
      | zero =>
        obtain rfl := List.eq_nil_of_length_eq_zero (Nat.le_zero.1 hm)
        simp [extractWithin, attempt_nil]
      | succ m =>
        simp only [extractWithin]
        cases h : attempt acc with
        | wait stage => rfl
        | skip w rest =>
          have := attempt_skip_length h
          simp only
          rw [ih m rest (by omega) (by omega)]
        | frame k rest =>
          have := attempt_frame_length h
          simp only
          rw [ih m rest (by omega) (by omega)]
  exact key n acc.length acc h (Nat.le_refl _)

/-- The loop's equation: one attempt, then the loop on what it leaves (R122). -/
theorem extract_eq (v : CrcVariant) (acc : Bytes) :
    extract v acc =
      match attempt acc with
      | .wait _ => ([], acc)
      | .skip m rest => emitBefore (.skip (lo8 m)) (extract v rest)
      | .frame k rest => emitBefore (judge v k) (extract v rest) := by
  rw [← extractWithin_eq_extract v (Nat.le_succ acc.length)]
  simp only [extractWithin]
  cases h : attempt acc with
  | wait stage => rfl
  | skip m rest =>
    have := attempt_skip_length h
    exact congrArg (emitBefore (.skip (lo8 m))) (extractWithin_eq_extract v (n := acc.length) (acc := rest) (by omega))
  | frame k rest =>
    have := attempt_frame_length h
    exact congrArg (emitBefore (judge v k)) (extractWithin_eq_extract v (n := acc.length) (acc := rest) (by omega))

theorem extract_quiescent (v : CrcVariant) {acc : Bytes} (h : quiescent acc = true) : extract v acc = ([], acc) := by
  obtain ⟨_, hw⟩ := (attempt_wait_iff acc).2 h
  rw [extract_eq, hw]

theorem extract_skip (v : CrcVariant) {b0 b1 : Byte} (h : registry (le16 b0 b1) = none) (tail : Bytes) :
    extract v (b0 :: b1 :: tail) = emitBefore (.skip b0) (extract v (b1 :: tail)) := by
  rw [extract_eq, attempt_skip h]
  simp

theorem extract_frame (v : CrcVariant) {bytes : Bytes} {m : U16} {f : FrameFormat} {t c : Byte}
    {lengthField payload : Bytes} {crc : U16} (h : IsFrame bytes m f t c lengthField payload crc) (tail : Bytes) :
    extract v (bytes ++ tail) = emitBefore (frameVerdict v m f t c lengthField payload crc) (extract v tail) := by
  rw [extract_eq, attempt_frame h]
  simp only
  rw [isFrame_judge_eq h]

/-- Induction along the loop: a property of every accumulator follows from its stop, its skip and its frame case. -/
theorem extract_induction {P : Bytes → Prop} (stop : ∀ acc, quiescent acc = true → P acc)
    (skip : ∀ b0 b1 tail, registry (le16 b0 b1) = none → P (b1 :: tail) → P (b0 :: b1 :: tail))
    (frame : ∀ bytes m f t c lengthField payload crc tail, IsFrame bytes m f t c lengthField payload crc → P tail →
      P (bytes ++ tail)) (acc : Bytes) : P acc := by
  have key : ∀ n acc, acc.length ≤ n → P acc := by
    intro n
    induction n with
    | zero =>
      intro acc h
      obtain rfl := List.eq_nil_of_length_eq_zero (Nat.le_zero.1 h)
      exact stop _ rfl
    | succ n ih =>
      intro acc hn
      cases h : attempt acc with
      | wait stage => exact stop _ ((attempt_wait_iff acc).1 ⟨stage, h⟩)
      | skip m rest =>
        have hl := attempt_skip_length h
        obtain ⟨b0, b1, tail, rfl, hr, rfl, rfl⟩ := attempt_skip_inv h
        exact skip _ _ _ hr (ih _ (by omega))
      | frame k rest =>
        have hl := attempt_frame_length h
        obtain ⟨bytes, lf, hf, rfl⟩ := attempt_frame_inv h
        exact frame _ _ _ _ _ _ _ _ _ hf (ih _ (by omega))
  exact key acc.length acc (Nat.le_refl _)

/-- The loop stops only where the accumulator is quiescent (R31). -/
theorem quiescent_extract (v : CrcVariant) (acc : Bytes) : quiescent (extract v acc).2 = true := by
  induction acc using extract_induction with
  | stop acc h => rw [extract_quiescent v h]; exact h
  | skip b0 b1 tail h ih => rw [extract_skip v h]; exact ih
  | frame bytes m f t c lf payload crc tail h ih => rw [extract_frame v h]; exact ih

/-- Extracting from more bytes is extracting, then extracting again from what was left with the rest (R130). -/
theorem extract_append (v : CrcVariant) (acc more : Bytes) :
    extract v (acc ++ more) =
      ((extract v acc).1 ++ (extract v ((extract v acc).2 ++ more)).1, (extract v ((extract v acc).2 ++ more)).2) := by
  induction acc using extract_induction with
  | stop acc h => simp [extract_quiescent v h]
  | skip b0 b1 tail h ih =>
    rw [List.cons_append, List.cons_append, extract_skip v h, extract_skip v h, ← List.cons_append, ih]
    simp [emitBefore]
  | frame bytes m f t c lf payload crc tail h ih =>
    rw [List.append_assoc, extract_frame v h, extract_frame v h, ih]
    simp [emitBefore]

end Sys2Proof.Laws
end

