-- ==== Sys2Proof/Laws/PerInstr.lean ====
section
/-! SUPPORT. One family of lemmas per instruction: the words the encoder writes match the instruction's row of
spec/opcode_table.json (30_encoding.md R71, R72). -/

namespace Sys2Proof.Laws.MatchesRow

/-- The pattern of a row: a frame row is its marker, `SKIP1` any pair that is no marker, a port row its select code, which the request's first byte
selects. -/
def Statement (i : Instr) : Prop :=
  i.wf = true →
    match i with
    | .frameShort _ _ _ _ => memRead2 (encode i) 0 = some 0x5AA5
    | .frameLong _ _ _ _ => memRead2 (encode i) 0 = some 0xAA55
    | .skip1 _ => ∃ m, memRead2 (encode i) 0 = some m ∧ m ≠ 0x5AA5 ∧ m ≠ 0xAA55
    | .lookup _ => i.selectCode = some 0 ∧ (encode i).head?.map opSelect = i.selectCode
    | .new _ _ _ _ => i.selectCode = some 1 ∧ (encode i).head?.map opSelect = i.selectCode
    | .encode _ => i.selectCode = some 2 ∧ (encode i).head?.map opSelect = i.selectCode
    | .feed _ => i.selectCode = some 3 ∧ (encode i).head?.map opSelect = i.selectCode
    | .reset => i.selectCode = some 4 ∧ (encode i).head?.map opSelect = i.selectCode

theorem frameShort (target command : Byte) (payload : Bytes) (crc : U16) :
    Statement (.frameShort target command payload crc) := by
  intro _
  simp [encode, frameBytes, wordBytes, shortMarker]

theorem frameLong (target command : Byte) (payload : Bytes) (crc : U16) :
    Statement (.frameLong target command payload crc) := by
  intro _
  simp [encode, frameBytes, wordBytes, longMarker]

theorem skip1 (m : U16) : Statement (.skip1 m) := by
  intro h
  refine ⟨m, by simp [encode, wordBytes], ?_, ?_⟩ <;> rintro rfl <;> exact absurd h (by decide)

theorem lookup (m : U16) : Statement (.lookup m) := fun _ => ⟨rfl, rfl⟩

theorem new (command : Byte) (framing : U16) (target : Byte) (payload : Bytes) :
    Statement (.new command framing target payload) := fun _ => ⟨rfl, rfl⟩

theorem encode (p : Packet) : Statement (.encode p) := fun _ => ⟨rfl, rfl⟩

theorem feed (chunk : Bytes) : Statement (.feed chunk) := fun _ => ⟨rfl, rfl⟩

theorem reset : Statement .reset := fun _ => ⟨rfl, rfl⟩

end Sys2Proof.Laws.MatchesRow
end

