-- ==== Sys2Proof/Tests/Slice0.lean ====
section
/-! SUPPORT. The model's own tests: ill-formed terms, words written out from the spec's encodings, one step per
instruction with results of spec/95_test_vectors.md, and a witness for the hypotheses of each obligation. -/

namespace Sys2Proof.Tests

open Sys2Proof.Machine

/-! ### Helpers -/

/-- The state an outcome answers. -/
def nextOf : Host.Outcome State Fault Refusal → Option State
  | .next s => some s
  | .fault _ => none
  | .refused _ => none

/-- The reason an outcome is refused for. -/
def refusalIn : Host.Outcome State Fault Refusal → Option Refusal
  | .next _ => none
  | .fault _ => none
  | .refused r => some r

/-- A decoded request. -/
def okOf : Except DecodeError Instr → Option Instr
  | .ok i => some i
  | .error _ => none

/-- `ACC` and answer after an instruction. -/
def after (i : Instr) (s : State) : Option (Bytes × Reply) := (nextOf (exec i s)).map fun t => (t.acc, t.reply)

/-- A state with given bytes buffered and a given CRC variant. -/
def holding (v : CrcVariant) (acc : Bytes) : State :=
  { State.reset with acc := acc, cfg := { Config.default with crcVariant := v } }

/-- An instance of a given finite capacity. -/
def bounded (cap : Nat) : State := { State.reset with cfg := { Config.default with accCapacity := some cap } }

/-- The packet of V-S3, and its two frames (V-E1). -/
def p1 : Packet := { framing := 0x5AA5, target := 0x00, command := 0x01, payload := [0x05, 0x00] }
def e1Hqx : Bytes := [0xA5, 0x5A, 0x00, 0x01, 0x02, 0x05, 0x00, 0x21, 0xE7]
def e1Arc : Bytes := [0xA5, 0x5A, 0x00, 0x01, 0x02, 0x05, 0x00, 0xA3, 0x6C]

/-- The packet and frame of V-E4. -/
def p4 : Packet := { framing := 0xAA55, target := 0x02, command := 0x08, payload := [0xDE, 0xAD, 0xBE, 0xEF] }
def e4Hqx : Bytes := [0x55, 0xAA, 0x02, 0x08, 0x04, 0x00, 0xDE, 0xAD, 0xBE, 0xEF, 0xC3, 0xEF]

/-! ### Well-formedness: each check refuses an ill-formed term (R28, R124, R147, R148) -/

theorem test_wf_short_payload_of_256 :
    (Instr.frameShort 0 0 (List.replicate 256 0) 0).wf = false := by decide +kernel

theorem test_wf_short_payload_of_255 :
    (Instr.frameShort 0 0 (List.replicate 255 0) 0).wf = true := by decide +kernel

theorem bytes_of_length (n : Nat) : ∃ b : Bytes, b.length = n := ⟨List.replicate n 0, List.length_replicate⟩

theorem test_wf_long_payload_of_65536 (payload : Bytes) (h : payload.length = 65536) :
    (Instr.frameLong 0 0 payload 0).wf = false := by
  rw [Instr.wf, h]
  decide

theorem test_wf_skip_of_marker : (Instr.skip1 0x5AA5).wf = false := by decide

theorem test_wf_encode_of_swapped_marker : (Instr.encode ⟨0xA55A, 0, 1, []⟩).wf = false := by decide

/-! ### Decoding of words written out from R61, R62, R71, R72 -/

theorem test_decode_frame_short : decodeWire e1Hqx = some (.frameShort 0x00 0x01 [0x05, 0x00] 0xE721, []) := by
  decide +kernel

theorem test_decode_frame_long :
    decodeWire e4Hqx = some (.frameLong 0x02 0x08 [0xDE, 0xAD, 0xBE, 0xEF] 0xEFC3, []) := by decide +kernel

theorem test_decode_skip1 : decodeWire [0x5A, 0xA5, 0x00] = some (.skip1 0xA55A, [0xA5, 0x00]) := by decide +kernel

theorem test_decode_lookup : okOf (decodePort [0x00, 0xA5, 0x5A]) = some (.lookup 0x5AA5) := by decide

theorem test_decode_new :
    okOf (decodePort [0x01, 0x0D, 0x55, 0xAA, 0x03, 0x11, 0x22, 0x33]) =
      some (.new 0x0D 0xAA55 0x03 [0x11, 0x22, 0x33]) := by decide

theorem test_decode_encode :
    okOf (decodePort [0x02, 0x01, 0xA5, 0x5A, 0x00, 0x05, 0x00]) = some (.encode p1) := by decide

theorem test_decode_feed : okOf (decodePort [0x03, 0x55]) = some (.feed [0x55]) := by decide

theorem test_decode_reset : okOf (decodePort [0x04]) = some .reset := by decide

theorem test_decode_half_a_framing : okOf (decodePort [0x01, 0x0D, 0x55]) = none := by decide

theorem test_decode_encode_of_swapped_marker : okOf (decodePort [0x02, 0x01, 0x5A, 0xA5]) = none := by decide

theorem test_table_words :
    [0x5AA5, 0xAA55, 0x0000].map (decodeTableWord 16) =
        [some (.frameShort 0 0 [] 0), some (.frameLong 0 0 [] 0), some (.skip1 0)] ∧
      [0, 1, 2, 3, 4, 5].map (decodeTableWord 8) =
        [some (.lookup 0), some (.new 0 0x5AA5 0 []), some (.encode ⟨0x5AA5, 0, 0, []⟩), some (.feed []), some .reset,
          none] := by decide +kernel

/-! ### One step of each instruction, results of 95_test_vectors.md -/

/-- R88 (iv), R92: the all-zero short frame is valid; it is what the table's word for `FRAME.SHORT` places. -/
theorem test_step_frame_short :
    (nextOf (step (State.reset.withFetchWord 16 0x5AA5))).map (fun t => t.reply) =
      some (.events [.packet ⟨0x5AA5, 0, 0, []⟩]) := by decide +kernel

/-- V-E4 with the ARC bytes of its CRC field. -/
theorem test_exec_frame_long :
    after (.frameLong 0x02 0x08 [0xDE, 0xAD, 0xBE, 0xEF] 0x73D2)
        (holding .arc [0x55, 0xAA, 0x02, 0x08, 0x04, 0x00, 0xDE, 0xAD, 0xBE, 0xEF, 0xD2, 0x73, 0x99]) =
      some ([0x99], .events [.packet p4]) := by decide +kernel

/-- V-D22. -/
theorem test_exec_skip1 :
    after (.skip1 0xA55A) (holding .hqx [0x5A, 0xA5, 0x00]) = some ([0xA5, 0x00], .events [.skip 0x5A]) := by
  decide +kernel

/-- V-L2, V-L4. -/
theorem test_exec_lookup :
    after (.lookup 0xAA55) State.reset = some ([], .format (some ⟨.two, 0xFFFF⟩)) ∧
      after (.lookup 0x55AA) State.reset = some ([], .format none) := by decide

/-- V-N3, and the packet of Program 1. -/
theorem test_exec_new :
    after (.new 0x01 0xA55A 0x00 []) State.reset = some ([], .error (.unknownFraming 0xA55A)) ∧
      after (.new 0x0D 0xAA55 0x03 [0x11]) State.reset = some ([], .packet ⟨0xAA55, 0x03, 0x0D, [0x11]⟩) := by decide

/-- V-E1. -/
theorem test_exec_encode :
    after (.encode p1) State.reset = some ([], .bytes e1Hqx) ∧
      after (.encode p1) (holding .arc []) = some ([], .bytes e1Arc) := by decide +kernel

/-- V-E11. -/
theorem test_exec_encode_too_large :
    after (.encode ⟨0x5AA5, 0, 0, List.replicate 256 0⟩) State.reset =
      some ([], .error (.payloadTooLarge 256 255)) := by decide +kernel

/-- V-D10: a corrupted length field swallows the next frame. -/
theorem test_exec_feed_corrupted_length :
    after (.feed [0xA5, 0x5A, 0x00, 0x01, 0x03, 0x05, 0x00, 0x21, 0xE7, 0xA5, 0x5A, 0x00, 0x01, 0x00, 0x31, 0x33])
        State.reset =
      some ([0x33], .events [.crcMismatch 0xEE3E 0xA5E7, .skip 0x5A, .skip 0x00, .skip 0x01, .skip 0x00, .skip 0x31]) := by
  decide +kernel

/-- V-D7, second operation: the bytes held back complete the frame. -/
theorem test_exec_feed_completes_held_frame :
    after (.feed [0x00, 0xDE, 0xAD, 0xBE, 0xEF, 0xC3, 0xEF]) (holding .hqx [0x55, 0xAA, 0x02, 0x08, 0x04]) =
      some ([], .events [.packet p4]) := by decide +kernel

/-- Program 5, step 2. -/
theorem test_exec_reset :
    after .reset (holding .hqx [0x55, 0xAA, 0x02, 0x08, 0x04]) = some ([], .nothing) := by decide

/-- R71: select code 5 is no operation. -/
theorem test_step_unassigned :
    refusalIn (step (State.reset.withFetchWord 8 5)) = some (.unassignedOp 5) := by decide +kernel

/-- R89. -/
theorem test_crc_check_values :
    let digits : Bytes := [0x31, 0x32, 0x33, 0x34, 0x35, 0x36, 0x37, 0x38, 0x39]
    crc16Lfsr .hqx 0xFFFF digits = 0x29B1 ∧ crc16Table .arc 0xFFFF digits = 0x4B37 := by decide +kernel

/-! ### Witnesses: a state and operands that meet each obligation's hypotheses together -/

theorem witness_NoStraddlingFalseMarker :
    (registry 0x5AA5).isSome = true ∧ (registry 0xAA55).isSome = true := by decide

theorem witness_MarkerBitErrorIsUnrecognized :
    ∃ (m : U16) (bit : Nat), (registry m).isSome = true ∧ bit < 16 := ⟨0xAA55, 15, by decide⟩

theorem witness_ResetLeavesEmptyAccumulator : (0x5AA4 : U16) ≠ 0xAA55 ∧ (0x5AA4 : U16) ≠ 0x5AA5 := by decide

theorem witness_CrcIsLinear :
    (∃ a b : Bytes, a.length = b.length ∧ a ≠ b) ∧ ∃ a : Bytes, a ≠ [] ∧ ∀ x ∈ a, x = 0 :=
  ⟨⟨[1], [2], by decide⟩, ⟨[0, 0], by decide⟩⟩

theorem witness_CrcDetectsEverySingleBit : ∃ (a : Bytes) (k bit : Nat), k < a.length ∧ bit < 8 :=
  ⟨[0xFF], 0, 7, by decide⟩

/-- Both clauses: the short marker, and its neighbour `0x5AA4`. -/
theorem witness_NewBuildsPacketOrUnknownFraming :
    State.reset.cfg.hasEncoder = true ∧ ((0x5AA5 : U16) = 0xAA55 ∨ (0x5AA5 : U16) = 0x5AA5) ∧
      (0x5AA4 : U16) ≠ 0xAA55 ∧ (0x5AA4 : U16) ≠ 0x5AA5 := by decide

theorem witness_EncodeEmitsWireFrame :
    ∃ (p : Packet) (f : FrameFormat) (s : State), s.cfg.hasEncoder = true ∧ registry p.framing = some f ∧
      p.payload.length = f.maxLen :=
  ⟨⟨0x5AA5, 0, 0, List.replicate 255 0⟩, shortFormat, State.reset, by decide +kernel⟩

theorem witness_OversizedPayloadIsAnError_short :
    ∃ (p : Packet) (s : State), s.cfg.hasEncoder = true ∧ p.framing = 0x5AA5 ∧ p.payload.length = 256 :=
  ⟨⟨0x5AA5, 0, 0, List.replicate 256 0⟩, State.reset, by decide +kernel⟩

theorem witness_OversizedPayloadIsAnError_long :
    ∃ (p : Packet) (s : State), s.cfg.hasEncoder = true ∧ p.framing = 0xAA55 ∧ p.payload.length = 65536 := by
  obtain ⟨payload, h⟩ := bytes_of_length 65536
  exact ⟨⟨0xAA55, 0, 0, payload⟩, State.reset, rfl, rfl, h⟩

theorem witness_AbsentEncoderIsRefused :
    State.reset.withoutEncoder.cfg.hasEncoder = false ∧
      (nextOf (exec (.feed []) State.reset)).isSome = true ∧ (nextOf (exec (.lookup 0) State.reset)).isSome = true ∧
      (nextOf (exec .reset State.reset)).isSome = true := by decide +kernel

theorem witness_EncodeOfNoPacketIsRefused :
    (State.reset.cfg.hasEncoder = true ∧ registry (Packet.framing ⟨0x5AA4, 0, 0, []⟩) = none) ∧
      okOf (decodePort [2, 0]) = some (.encode ⟨0x5AA5, 0, 0, []⟩) := by decide

theorem witness_EncoderIgnoresAccumulator :
    (nextOf (exec (.lookup 0) State.reset)).isSome = true ∧
      (nextOf (exec (.new 0 0x5AA5 0 []) State.reset)).isSome = true ∧
      (nextOf (exec (.encode p1) State.reset)).isSome = true := by decide +kernel

theorem witness_DistinctPacketsHaveDistinctFrames :
    nextOf (exec (.encode p1) State.reset) = some { State.reset with reply := .bytes e1Hqx } := by decide +kernel

/-- The first clause at `L = 0` and at `L = 2`; the stops at 6 bytes and at one byte less than the whole frame. -/
theorem witness_ShortFrameIsConsumedAndJudged :
    (([] : Bytes).length = (0 : Byte).toNat ∧
        (holding .hqx [0xA5, 0x5A, 0, 0, 0, 0, 0]).acc = ([0xA5, 0x5A, 0, 0, 0] ++ [] ++ [0, 0] ++ [] : Bytes)) ∧
      (holding .hqx e1Hqx).acc = [0xA5, 0x5A, 0x00, 0x01, 0x02] ++ [0x05, 0x00] ++ [0x21, 0xE7] ++ [] ∧
      ((holding .hqx (e1Hqx.take 6)).acc = 0xA5 :: 0x5A :: [0x00, 0x01, 0x02, 0x05] ∧
        (holding .hqx (e1Hqx.take 6)).acc.length < 7) ∧
      (holding .hqx (e1Hqx.take 8)).acc = [0xA5, 0x5A, 0x00, 0x01, 0x02] ++ [0x05, 0x00, 0x21] ∧
      (holding .hqx (e1Hqx.take 8)).acc.length < 7 + (2 : Byte).toNat ∧
      [0x05, (0x00 : Byte)].length = (2 : Byte).toNat := by decide

theorem witness_LongFrameIsConsumedAndJudged :
    (([] : Bytes).length = (0 : Byte).toNat + 256 * (0 : Byte).toNat ∧
        (holding .hqx [0x55, 0xAA, 0, 1, 0, 0, 0xF0, 0xB3]).acc =
          [0x55, 0xAA, 0, 1, 0, 0] ++ [] ++ [0xF0, 0xB3] ++ []) ∧
      (holding .hqx e4Hqx).acc = [0x55, 0xAA, 0x02, 0x08, 4, 0] ++ [0xDE, 0xAD, 0xBE, 0xEF] ++ [0xC3, 0xEF] ++ [] ∧
      ((holding .hqx (e4Hqx.take 7)).acc = 0x55 :: 0xAA :: [0x02, 0x08, 0x04, 0x00, 0xDE] ∧
        (holding .hqx (e4Hqx.take 7)).acc.length < 8) ∧
      (holding .hqx (e4Hqx.take 11)).acc = [0x55, 0xAA, 0x02, 0x08, 4, 0] ++ [0xDE, 0xAD, 0xBE, 0xEF, 0xC3] ∧
      (holding .hqx (e4Hqx.take 11)).acc.length < 8 + ((4 : Byte).toNat + 256 * (0 : Byte).toNat) ∧
      [0xDE, 0xAD, 0xBE, (0xEF : Byte)].length = (4 : Byte).toNat + 256 * (0 : Byte).toNat := by decide

theorem witness_UnrecognizedPairSkipsOneByte :
    ((holding .hqx [0x5A, 0xA5]).acc = 0x5A :: 0xA5 :: [] ∧ registry (le16 0x5A 0xA5) = none ∧
        (holding .hqx [0x5A, 0xA5]).cfg.accCapacity = none) ∧
      (holding .hqx [0xA5, 0x5A]).acc = 0xA5 :: 0x5A :: [] ∧ (registry (le16 0xA5 0x5A)).isSome = true := by decide

/-- The six clauses, each at its boundary length. -/
theorem witness_WireUnitsCompleteInEveryState :
    7 + ([] : Bytes).length ≤ (holding .hqx [0xA5, 0x5A, 0, 0, 0, 0, 0]).acc.length ∧
      (holding .hqx [0x55, 0xAA, 0, 0, 0, 0]).acc.length < 7 + ([] : Bytes).length ∧
      8 + ([] : Bytes).length ≤ (holding .hqx [0x55, 0xAA, 0, 0, 0, 0, 0, 0]).acc.length ∧
      (holding .hqx [0xA5, 0x5A, 0, 0, 0, 0, 0]).acc.length < 8 + ([] : Bytes).length ∧
      2 ≤ (holding .hqx [0, 0]).acc.length ∧ (holding .hqx [0]).acc.length < 2 := by decide

theorem witness_PortRequestsRoundTrip :
    (Instr.encode p1).wf = true ∧ (Instr.encode p1).isWire = false := by decide

theorem witness_WireUnitsRoundTrip :
    ((Instr.frameShort 0 0 [] 0).wf = true ∧ (Instr.frameShort 0 0 [] 0).isWire = true) ∧
      (Instr.skip1 0xA55A).wf = true ∧ (Instr.skip1 0xA55A).isWire = true := by decide

theorem witness_DecodingReadsOnlyWhatIsWritten :
    decodeWire (e1Hqx ++ [0x55]) = some (.frameShort 0x00 0x01 [0x05, 0x00] 0xE721, [0x55]) ∧
      decodeWire [0, 0] = some (.skip1 0, [0]) ∧ okOf (decodePort [4]) = some .reset := by decide +kernel

/-- The only hypothesis of FeedRunsTheExtractionLoop, NoByteIsLostOrDuplicated and FeedEventsAreBounded. -/
theorem witness_unbounded_instance : State.reset.cfg.accCapacity = none := rfl

theorem witness_FeedRunsTheExtractionLoop :
    Extracts .hqx (State.reset.acc ++ [0x5A, 0xA5]) [.skip 0x5A] [0xA5] :=
  .skip (by decide) (.stop (by decide))

theorem witness_FeedCompletesQuiescent :
    State.reset.cfg.wf = true ∧ (bounded 65543).cfg.wf = true ∧ quiescent (bounded 65543).acc = true := by decide

/-- The largest occupancy of the short form has 261 bytes (R32). -/
theorem witness_QuiescentOccupancyIsBounded :
    quiescent ([0xA5, 0x5A, 0, 0, 0xFF] ++ List.replicate 256 (0 : Byte)) = true ∧
      ([0xA5, 0x5A, 0, 0, (0xFF : Byte)] ++ List.replicate 256 0).length = 261 := by decide +kernel

theorem witness_EmptyFeedChangesNothing :
    (holding .hqx [0x55, 0xAA, 0x02]).cfg.wf = true ∧ quiescent (holding .hqx [0x55, 0xAA, 0x02]).acc = true := by
  decide +kernel

theorem witness_ChunkingDoesNotMatter : State.reset.cfg.accCapacity = none ∧ [e1Hqx.take 3, e1Hqx.drop 3] ≠ [] := by
  decide

theorem witness_FiniteInstanceEqualsUnbounded :
    (bounded 65543).cfg.accCapacity = some 65543 ∧ 65543 ≤ 65543 ∧ quiescent (bounded 65543).acc = true := by decide

/-- The two clauses: a full instance at the least capacity, and the capacity just below it. -/
theorem witness_FullInstanceAcceptsNoByte :
    (∃ s : State, s.cfg.accCapacity = some 65543 ∧ 65543 ≤ s.acc.length) ∧
      (bounded 65542).cfg.accCapacity = some 65542 ∧ 65542 < 65543 := by
  obtain ⟨acc, h⟩ := bytes_of_length 65543
  exact ⟨⟨{ bounded 65543 with acc := acc }, rfl, h.ge⟩, by decide⟩

theorem witness_CandidateFrameIsConsumedWhole :
    IsFrame e1Hqx 0x5AA5 shortFormat 0x00 0x01 [0x02] [0x05, 0x00] 0xE721 ∧
      (holding .hqx (e1Hqx.take 4)).acc ++ (e1Hqx.drop 4 ++ [0x55]) = e1Hqx ++ [0x55] :=
  ⟨⟨by decide, by decide, by decide, 0xA5, 0x5A, 0x21, 0xE7, by decide, by decide, rfl⟩, by decide⟩

theorem witness_FeedIsIteratedWireUnits :
    (holding .hqx e1Hqx).cfg.accCapacity = none ∧
      decodeWire (holding .hqx e1Hqx).acc = some (.frameShort 0x00 0x01 [0x05, 0x00] 0xE721, []) := by decide +kernel

/-- V-D13: a false long marker that declares 65535 bytes. -/
theorem witness_IncompleteCandidateHoldsEverything :
    (holding .hqx [0x55, 0xAA, 0, 0, 0xFF, 0xFF]).cfg.wf = true ∧ registry (le16 0x55 0xAA) = some longFormat ∧
      readLength longFormat (holding .hqx [0x55, 0xAA, 0, 0, 0xFF, 0xFF]).acc = some 65535 ∧
      (holding .hqx [0x55, 0xAA, 0, 0, 0xFF, 0xFF]).acc.length + e1Hqx.length < longFormat.totalNeeded 65535 := by
  decide +kernel

/-- Every clause of AttemptTestsInFixedOrder and of AttemptPlacesFollowTheBuffer: one byte; an unrecognized pair; 6 bytes of a short frame; one
byte less than the whole frame; the whole frame. -/
theorem witness_AttemptTestsInFixedOrder :
    [(0xA5 : Byte)].length < 2 ∧ registry (le16 0x5A 0xA5) = none ∧ registry (le16 0xA5 0x5A) = some shortFormat ∧
      (e1Hqx.take 6).length < shortFormat.headerLen + 4 ∧
      (shortFormat.headerLen + 4 ≤ (e1Hqx.take 8).length ∧ readLength shortFormat (e1Hqx.take 8) = some 2 ∧
        (e1Hqx.take 8).length < shortFormat.totalNeeded 2) ∧
      readLength shortFormat e1Hqx = some 2 ∧ shortFormat.totalNeeded 2 ≤ e1Hqx.length ∧
      memRead2 e1Hqx (shortFormat.totalNeeded 2 - 2) = some 0xE721 := by decide +kernel

theorem witness_EncodedPacketIsDecodedBack :
    State.reset.cfg.hasEncoder = true ∧ registry p4.framing = some longFormat ∧
      p4.payload.length ≤ longFormat.maxLen ∧ (bounded 65543).acc = [] ∧ (bounded 65543).cfg.wf = true ∧
      (bounded 65543).cfg.crcVariant = State.reset.cfg.crcVariant := by decide

theorem witness_DecodedPacketReencodesToItsBytes :
    (nextOf (exec (.feed (0x00 :: e1Hqx)) State.reset)).map (fun t => t.reply) =
      some (.events ([.skip 0x00] ++ .packet p1 :: [])) := by decide +kernel

/-- V-D4's garbage `00 FF A5`, then V-E1. -/
theorem witness_FrameAfterGarbageIsFound :
    nextOf (exec (.encode p1) State.reset) = some { State.reset with reply := .bytes e1Hqx } ∧
      State.reset.acc ++ [0x00, 0xFF, 0xA5, 0xA5, 0x5A, 0x00, 0x01, 0x02, 0x05, 0x00, 0x21, 0xE7, 0x55] =
        [0x00, 0xFF, 0xA5] ++ e1Hqx ++ [0x55] ∧
      registry (le16 0x00 0xFF) = none ∧ registry (le16 0xFF 0xA5) = none := by decide +kernel

/-- The flipped bit at the target byte, at the first payload byte and at the last byte of V-E1. -/
theorem witness_SingleBitTamperIsDropped :
    nextOf (exec (.encode p1) State.reset) = some { State.reset with reply := .bytes e1Hqx } ∧
      registry p1.framing = some shortFormat ∧ 2 < e1Hqx.length ∧ shortFormat.payloadOff ≤ 5 ∧ 5 < e1Hqx.length ∧
      shortFormat.payloadOff ≤ 8 ∧ 8 < e1Hqx.length ∧
      State.reset.acc ++ ([0xA5, 0x5A, 0x00, 0x01, 0x02, 0x05, 0x00, 0x21, 0xF7, 0x55] : Bytes) =
        e1Hqx.modify 8 (· ^^^ (1#8 <<< 4)) ++ [0x55] := by decide +kernel

theorem witness_StepRunsTheWireUnitInFront :
    decodeWire (State.reset.withFetchWord 16 0).acc = some (.skip1 0, [0, 0, 0, 0, 0, 0, 0]) := by decide +kernel

theorem witness_StepRunsTheOldestRequest :
    (decodeWire (State.reset.withFetchWord 8 4).acc = none ∧ (State.reset.withFetchWord 8 4).port = [4] :: [] ∧
        okOf (decodePort [4]) = some .reset) ∧
      decodeWire State.reset.acc = none ∧ State.reset.port = [] := by decide +kernel

theorem witness_UnassignedSelectCodesAreRefused :
    decodeWire (State.reset.withFetchWord 8 5).acc = none ∧
      (State.reset.withFetchWord 8 5).port = (5 :: []) :: [] ∧ 5 ≤ (opSelect 5).toNat ∧
      5 ≤ (opSelect 7).toNat := by decide +kernel

/-- Also for NoStepChangesTheConfiguration. -/
theorem witness_EveryStepKeepsTheInvariant :
    (State.reset.withFetchWord 8 3).inv = true ∧
      (nextOf (step (State.reset.withFetchWord 8 3))).isSome = true := by decide +kernel

theorem witness_OnlyDecoderOperationsWriteAccumulator :
    (nextOf (exec .reset (holding .hqx [0x55]))).map (fun t => t.acc) = some [] ∧
      (holding .hqx [0x55]).acc ≠ [] := by decide

end Sys2Proof.Tests
end

section
/-! The state after reset and the constant registry (10_state.md R25, R33). -/

namespace Sys2Proof.Proofs

open Sys2Proof.Machine Sys2Proof.Laws

/-! ### The registry and the quiescent condition -/

/-- The two markers are the only keys of the registry (R25). -/
theorem registry_eq_none_iff {m : U16} : registry m = none ↔ m ≠ longMarker ∧ m ≠ shortMarker := by
  constructor
  · intro h
    constructor <;> rintro rfl <;> simp at h
  · rintro ⟨hlong, hshort⟩
    cases h : registry m with
    | none => rfl
    | some f =>
      obtain ⟨hm, -⟩ | ⟨hm, -⟩ := registry_eq_some h
      · exact absurd hm hlong
      · exact absurd hm hshort

@[simp] theorem quiescent_nil : quiescent [] = true := rfl

/-! ### The obligations -/

/-- Settles O1: the quiescent condition is met by `ACC = []`, and by the registry's inversion a key with an entry is one
of the two markers. -/
theorem resetLeavesEmptyAccumulator : Obligations.ResetLeavesEmptyAccumulator := by
  refine ⟨reset_acc, ?_, registry_long, registry_short, ?_⟩
  · rw [reset_acc, quiescent_nil]
  · intro m hlong hshort
    exact registry_eq_none_iff.mpr ⟨hlong, hshort⟩

end Sys2Proof.Proofs
end

section
/-! The registry's lookup operation (40_registry_crc.md R80). -/

namespace Sys2Proof.Proofs

open Sys2Proof.Machine Sys2Proof.Laws

/-- The registry's value at every marker, with the constants written out as R25 gives them. -/
theorem registry_eq_entries (m : U16) :
    registry m =
      if m = 0xAA55 then some { lfw := .two, crcInit := 0xFFFF }
      else if m = 0x5AA5 then some { lfw := .one, crcInit := 0x0000 }
      else none := by
  split
  case isTrue hlong => exact hlong ▸ registry_long
  case isFalse hlong =>
    split
    case isTrue hshort => exact hshort ▸ registry_short
    case isFalse hshort => exact registry_eq_none_iff.mpr ⟨hlong, hshort⟩

/-- Settles O4: `LOOKUP` stores the registry's value as the answer, and that value is the table R25 gives. -/
theorem lookupAnswersRegistryEntry : Obligations.LookupAnswersRegistryEntry := by
  intro m s
  refine ⟨?_, rfl⟩
  rw [exec_lookup, registry_eq_entries]
  rfl

end Sys2Proof.Proofs
end

section
/-! Construction and serialization (41_packet_serializer.md R100 to R107). -/

namespace Sys2Proof.Proofs

open Sys2Proof.Machine Sys2Proof.Laws

/-! ### What `NEW` and `ENCODE` answer -/

section WithEncoder

variable {s : State} (h : s.cfg.hasEncoder = true)

include h

theorem exec_new_of_recognized {framing : U16} (hf : (registry framing).isSome = true) (command target : Byte)
    (payload : Bytes) :
    exec (.new command framing target payload) s =
      .next (s.answer
        (.packet { framing := framing, target := target, command := command, payload := payload })) := by
  obtain ⟨f, hf⟩ := Option.isSome_iff_exists.mp hf
  simp [exec, execNew, h, hf]

theorem exec_new_of_unrecognized {framing : U16} (hf : registry framing = none) (command target : Byte)
    (payload : Bytes) :
    exec (.new command framing target payload) s = .next (s.raise (.unknownFraming framing)) := by
  simp [exec, execNew, h, hf]

variable {p : Packet} {f : FrameFormat} (hf : registry p.framing = some f)

include hf

/-- A payload within `MAXLEN` is serialized (R102). -/
theorem exec_encode_of_fits (hle : p.payload.length ≤ f.maxLen) :
    exec (.encode p) s =
      .next (s.answer (.bytes (frameBytes p.framing f p.target p.command p.payload
        (crc16 s.cfg.crcVariant f.crcInit (coveredBytes f p.target p.command p.payload))))) := by
  obtain ⟨hlt, -⟩ | ⟨-, hok⟩ := serialize_cases s.cfg.crcVariant f p
  · omega
  · simp [exec, execEncode, h, hf, hok]

/-- A payload beyond `MAXLEN` raises the error (R103). -/
theorem exec_encode_of_oversized (hlt : f.maxLen < p.payload.length) :
    exec (.encode p) s = .next (s.raise (.payloadTooLarge p.payload.length f.maxLen)) := by
  obtain ⟨-, herr⟩ | ⟨hle, -⟩ := serialize_cases s.cfg.crcVariant f p
  · simp [exec, execEncode, h, hf, herr]
  · omega

end WithEncoder

theorem exec_new_of_absent {s : State} (h : s.cfg.hasEncoder = false) (command : Byte) (framing : U16)
    (target : Byte) (payload : Bytes) :
    exec (.new command framing target payload) s = .refused (.encoderAbsent "NEW") := by
  simp [exec, execNew, h]

theorem exec_encode_of_absent {s : State} (h : s.cfg.hasEncoder = false) (p : Packet) :
    exec (.encode p) s = .refused (.encoderAbsent "ENCODE") := by
  simp [exec, execEncode, h]

/-! ### The length field, written as R102 does -/

theorem lengthBytes_one (n : Nat) : lengthBytes .one n = [BitVec.ofNat 8 n] := rfl

theorem lengthBytes_two (n : Nat) :
    lengthBytes .two n = [BitVec.ofNat 8 (n % 256), BitVec.ofNat 8 (n / 256)] := by
  have hlo : lo8OfNat n = BitVec.ofNat 8 (n % 256) := by
    apply BitVec.eq_of_toNat_eq
    simp [toNat_lo8OfNat]
  rw [lengthBytes, hlo, hi8OfNat]

/-! ### Taking the encoder away -/

@[simp] theorem withoutEncoder_accCapacity (s : State) :
    s.withoutEncoder.cfg.accCapacity = s.cfg.accCapacity := rfl

theorem withoutEncoder_answer (s : State) (r : Reply) :
    s.withoutEncoder.answer r = (s.answer r).withoutEncoder := rfl

theorem withoutEncoder_absorb (s : State) (chunk : Bytes) :
    s.withoutEncoder.absorb chunk = (s.absorb chunk).withoutEncoder := rfl

theorem withoutEncoder_absorbSerial (s : State) (cap : Nat) (chunk : Bytes) :
    s.withoutEncoder.absorbSerial cap chunk = (s.absorbSerial cap chunk).withoutEncoder := by
  cases chunk <;> rfl

/-- `FEED` does not look at `HAS_ENCODER`: on every capacity on which it answers, it answers the same without. -/
theorem exec_feed_withoutEncoder {s t : State} {chunk : Bytes} (h : exec (.feed chunk) s = .next t) :
    exec (.feed chunk) s.withoutEncoder = .next t.withoutEncoder := by
  obtain ⟨hcap, rfl⟩ | ⟨cap, hcap, hmin, rfl⟩ := exec_feed_cases h
  · rw [exec_feed_unbounded (by simpa using hcap), withoutEncoder_absorb]
  · rw [exec_feed_bounded (by simpa using hcap) hmin, withoutEncoder_absorbSerial]

/-! ### The obligations -/

/-- Settles O18: both meanings test for the encoder first; the three other operations commute with taking the encoder
away. -/
theorem absentEncoderIsRefused : Obligations.AbsentEncoderIsRefused := by
  constructor
  · intro s command framing target payload p h
    exact ⟨exec_new_of_absent h command framing target payload, exec_encode_of_absent h p⟩
  · rintro s t i (rfl | ⟨m, rfl⟩ | ⟨chunk, rfl⟩) h
    · cases h
      rw [exec_reset]
      rfl
    · cases h
      rw [exec_lookup, withoutEncoder_answer]
    · exact exec_feed_withoutEncoder h

/-- Settles O14: the framings with a registry entry are the two markers. -/
theorem newBuildsPacketOrUnknownFraming : Obligations.NewBuildsPacketOrUnknownFraming := by
  refine ⟨fun command target framing payload s h => ⟨?_, ?_⟩, fun _ _ _ _ => rfl, rfl, rfl, rfl⟩
  · intro hmarker
    have hf : (registry framing).isSome = true := by
      rcases hmarker with rfl | rfl <;> rfl
    exact exec_new_of_recognized h hf command target payload
  · intro hlong hshort
    exact exec_new_of_unrecognized h (registry_eq_none_iff.mpr ⟨hlong, hshort⟩) command target payload

/-- Settles O16: the bytes the CRC covers are the statement's middle part, whichever width the length field has. -/
theorem encodeEmitsWireFrame : Obligations.EncodeEmitsWireFrame := by
  intro p f s h hf hle n lengthField body c
  have hfield : lengthBytes f.lfw n = lengthField := by
    cases hw : f.lfw with
    | one => simp only [lengthField, hw, lengthBytes_one]
    | two => simp only [lengthField, hw, lengthBytes_two]
  have hbody : coveredBytes f p.target p.command p.payload = body := by
    rw [coveredBytes, hfield]
  refine ⟨?_, rfl⟩
  rw [exec_encode_of_fits h hf hle, frameBytes, hbody]
  rfl

/-- Settles O17: the two limits are the `MAXLEN` of the two formats. -/
theorem oversizedPayloadIsAnError : Obligations.OversizedPayloadIsAnError := by
  intro p s h
  constructor
  · intro hshort hlt
    have hf : registry p.framing = some shortFormat := hshort ▸ registry_short
    rw [exec_encode_of_oversized h hf (by simpa using hlt), shortFormat_maxLen]
    rfl
  · intro hlong hlt
    have hf : registry p.framing = some longFormat := hlong ▸ registry_long
    rw [exec_encode_of_oversized h hf (by simpa using hlt), longFormat_maxLen]
    rfl

end Sys2Proof.Proofs
end

section
/-! The accumulator's operations (42_frame_sync_accumulator.md): `FEED` as the loop of R120, the skip of R124, and
`RESET` (R132). -/

namespace Sys2Proof.Proofs

open Sys2Proof.Machine Sys2Proof.Laws

/-! ### The loop as a function and as a relation -/

/-- The function takes every accumulator along a path of the relation. -/
theorem extracts_extract (v : CrcVariant) (acc : Bytes) : Extracts v acc (extract v acc).1 (extract v acc).2 := by
  induction acc using extract_induction with
  | stop acc hq =>
    rw [extract_quiescent v hq]
    exact .stop hq
  | skip b0 b1 tail hnone ih =>
    rw [extract_skip v hnone]
    exact .skip hnone ih
  | frame bytes m f t c lengthField payload crc tail hframe ih =>
    rw [extract_frame v hframe]
    exact .frame hframe ih

/-- Whatever path the relation takes, it comes to what the function computes. -/
theorem extract_eq_of_extracts {v : CrcVariant} {acc left : Bytes} {out : List Event}
    (h : Extracts v acc out left) : extract v acc = (out, left) := by
  induction h with
  | stop hq => exact extract_quiescent v hq
  | skip hnone _ ih => rw [extract_skip v hnone, ih, emitBefore]
  | frame hframe _ ih => rw [extract_frame v hframe, ih, emitBefore]

/-- The relation is the graph of the function, so it has exactly one outcome. -/
theorem extracts_iff {v : CrcVariant} {acc left : Bytes} {out : List Event} :
    Extracts v acc out left ↔ extract v acc = (out, left) := by
  refine ⟨extract_eq_of_extracts, fun h => ?_⟩
  have hpath := extracts_extract v acc
  rwa [h] at hpath

/-! ### The unrecognized pair in front -/

theorem decodeWire_of_unrecognized {b0 b1 : Byte} (h : registry (le16 b0 b1) = none) (tail : Bytes) :
    decodeWire (b0 :: b1 :: tail) = some (.skip1 (le16 b0 b1), b1 :: tail) := by
  rw [decodeWire, attempt_skip h]

theorem candidate_unit_ne_skip1 (k : Candidate) (m : U16) : k.unit ≠ .skip1 m := by
  unfold Candidate.unit
  cases k.format.lfw <;> simp

/-- The unit `SKIP1` is read only where the attempt skips. -/
theorem attempt_of_decodeWire_skip1 {acc rest : Bytes} {m : U16} (h : decodeWire acc = some (.skip1 m, rest)) :
    attempt acc = .skip m rest := by
  unfold decodeWire at h
  cases hattempt : attempt acc with
  | wait stage => simp [hattempt] at h
  | skip w left => simpa [hattempt] using h
  | frame k left =>
    simp only [hattempt, Option.some.injEq, Prod.mk.injEq] at h
    exact absurd h.1 (candidate_unit_ne_skip1 k m)

theorem registry_of_decodeWire_skip1 {b0 b1 : Byte} {tail rest : Bytes} {m : U16}
    (h : decodeWire (b0 :: b1 :: tail) = some (.skip1 m, rest)) : registry (le16 b0 b1) = none := by
  obtain ⟨c0, c1, tail', rfl, hnone, hacc, -⟩ := attempt_skip_inv (attempt_of_decodeWire_skip1 h)
  cases hacc
  exact hnone

section UnrecognizedPair

variable {s : State} {b0 b1 : Byte} {tail : Bytes} (hacc : s.acc = b0 :: b1 :: tail)

include hacc

/-- The pair's first byte leaves `ACC`; its second stays (R124). -/
theorem exec_skip1_of_pair :
    exec (.skip1 (le16 b0 b1)) s = .next { s with acc := b1 :: tail, reply := .events [.skip b0] } := by
  have htwo : 2 ≤ s.acc.length := by simp [hacc]
  rw [exec_skip1, skipByte_of_le s htwo, hacc, lo8_le16, List.drop_one, List.tail_cons]

/-- Feeding on top of an unrecognized pair is feeding with the first byte gone, its report put in front. -/
theorem absorb_of_unrecognized (h : registry (le16 b0 b1) = none) (chunk : Bytes) :
    s.absorb chunk =
      { State.absorb { s with acc := b1 :: tail } chunk with
        reply := .events (.skip b0 :: (extract s.cfg.crcVariant (b1 :: tail ++ chunk)).1) } := by
  have hextract := extract_skip s.cfg.crcVariant h (tail ++ chunk)
  simp only [State.absorb, accAppend, hacc, List.cons_append, hextract, emitBefore]

end UnrecognizedPair

/-! ### The obligations -/

/-- Settles O30: the loop's function is the relation's only path (`extracts_iff`), by induction along the loop. -/
theorem feedRunsTheExtractionLoop : Obligations.FeedRunsTheExtractionLoop := by
  refine ⟨fun s chunk hcap => ?_, fun _ => rfl⟩
  refine ⟨_, _, extracts_extract s.cfg.crcVariant (s.acc ++ chunk), exec_feed_unbounded hcap, ?_⟩
  intro out left hpath
  rw [extracts_iff.mp hpath]
  exact ⟨rfl, rfl⟩

/-- Settles O24: the attempt on an unrecognized pair skips one byte, alone and as the first pass of `FEED`; only such
an attempt is read as `SKIP1`. -/
theorem unrecognizedPairSkipsOneByte : Obligations.UnrecognizedPairSkipsOneByte := by
  intro s b0 b1 tail hacc
  constructor
  · intro hnone
    refine ⟨by rw [hacc, decodeWire_of_unrecognized hnone], exec_skip1_of_pair hacc, fun hcap => ?_⟩
    refine ⟨_, _, exec_feed_unbounded hcap, absorb_reply _ _, ?_⟩
    rw [exec_feed_unbounded hcap, absorb_of_unrecognized hacc hnone]
  · intro hsome m rest hskip
    rw [hacc] at hskip
    simp [registry_of_decodeWire_skip1 hskip] at hsome

/-- Settles O3: the rule of `RESET`, which looks at no field of the state, and its select code. -/
theorem resetOperationEmptiesAccumulator : Obligations.ResetOperationEmptiesAccumulator :=
  ⟨fun _ => exec_reset, rfl⟩

end Sys2Proof.Proofs
end

section
/-! Candidate frames (43_packet_parser.md R140 to R148): a whole one in front of `ACC` is consumed and judged, alone and
as the first pass of `FEED`; an incomplete one stops the attempt. -/

namespace Sys2Proof.Proofs

open Sys2Proof.Machine Sys2Proof.Laws

/-! ### A whole candidate frame in front -/

section WholeFrame

variable {bytes lengthField payload : Bytes} {marker crc : U16} {f : FrameFormat} {target command : Byte}
  (hframe : IsFrame bytes marker f target command lengthField payload crc)

include hframe

theorem decodeWire_of_isFrame (rest : Bytes) :
    decodeWire (bytes ++ rest) = some (Candidate.unit ⟨f, marker, target, command, payload, crc⟩, rest) := by
  rw [decodeWire, attempt_frame hframe]

/-- Exactly the frame's bytes leave `ACC`, whatever its CRC (R142), and the verdict is the one event. -/
theorem takeFrame_of_isFrame {s : State} {rest : Bytes} (hacc : s.acc = bytes ++ rest) :
    s.takeFrame ⟨f, marker, target, command, payload, crc⟩ =
      { s with
        acc := rest
        reply := .events [frameVerdict s.cfg.crcVariant marker f target command lengthField payload crc] } := by
  have hlen : f.totalNeeded payload.length = bytes.length := (isFrame_length hframe).symm
  have hle : f.totalNeeded payload.length ≤ s.acc.length := by simp [hlen, hacc]
  rw [takeFrame_of_le s hle, isFrame_judge_eq hframe, hlen, hacc, List.drop_left]

/-- Feeding so that a whole frame stands in front is feeding the bytes after it to an empty `ACC`, the frame's verdict
put in front. -/
theorem absorb_of_isFrame {s : State} {chunk tail : Bytes} (hacc : s.acc ++ chunk = bytes ++ tail) :
    s.absorb chunk =
      { State.absorb { s with acc := [] } tail with
        reply := .events
          (frameVerdict s.cfg.crcVariant marker f target command lengthField payload crc ::
            (extract s.cfg.crcVariant tail).1) } := by
  simp only [State.absorb, accAppend, hacc, extract_frame _ hframe, emitBefore, List.nil_append]

end WholeFrame

/-! ### An incomplete candidate frame in front -/

section IncompleteFrame

variable {m0 m1 : Byte} {f : FrameFormat} (hf : registry (le16 m0 m1) = some f)

include hf

/-- Below the format's minimum frame the attempt stops at step 3c. -/
theorem quiescent_of_lt_minFrame {tail : Bytes} (hlt : (m0 :: m1 :: tail).length < f.minFrame) :
    quiescent (m0 :: m1 :: tail) = true := by
  refine (attempt_wait_iff _).mp ⟨.header, ?_⟩
  have hheader : tail.length + 2 < f.headerLen + 4 := hlt
  simp [attempt_cons_cons, hf, hheader]

/-- Below the length the header declares the attempt stops at step 3e, if not already at step 3c. -/
theorem quiescent_of_lt_totalNeeded {tail : Bytes} {n : Nat} (hn : readLength f (m0 :: m1 :: tail) = some n)
    (hlt : (m0 :: m1 :: tail).length < f.totalNeeded n) : quiescent (m0 :: m1 :: tail) = true := by
  have hbody : (m0 :: m1 :: tail).length < 2 + (2 + f.lfw.bytes) + n + 2 := hlt
  simp only [quiescent, hf, hn, hbody, decide_true, Bool.or_true]

variable {s : State} {tail : Bytes} (hacc : s.acc = m0 :: m1 :: tail)

include hacc

/-- With fewer bytes than the shortest frame there is no unit, and a frame unit of the format stops without effect. -/
theorem frame_stops_of_lt_minFrame (hlt : s.acc.length < f.minFrame) :
    decodeWire s.acc = none ∧ ∀ k : Candidate, k.format = f → s.takeFrame k = s.answer (.events []) := by
  constructor
  · rw [hacc] at hlt ⊢
    exact (decodeWire_eq_none_iff _).mpr (quiescent_of_lt_minFrame hf hlt)
  · rintro k rfl
    have hmin : k.format.minFrame = k.format.headerLen + 4 := rfl
    exact takeFrame_of_lt s (by rw [totalNeeded_eq]; omega)

/-- With fewer bytes than the header declares there is no unit, and a frame unit of that length stops without
effect. -/
theorem frame_stops_of_lt_totalNeeded {n : Nat} (hn : readLength f s.acc = some n)
    (hlt : s.acc.length < f.totalNeeded n) :
    decodeWire s.acc = none ∧
      ∀ k : Candidate, k.format = f → k.payload.length = n → s.takeFrame k = s.answer (.events []) := by
  constructor
  · rw [hacc] at hn hlt ⊢
    exact (decodeWire_eq_none_iff _).mpr (quiescent_of_lt_totalNeeded hf hn hlt)
  · rintro k rfl rfl
    exact takeFrame_of_lt s hlt

end IncompleteFrame

/-! ### The two layouts (formats R61, R62) -/

theorem le16_shortMarker : le16 0xA5 0x5A = shortMarker := by decide

theorem le16_longMarker : le16 0x55 0xAA = longMarker := by decide

theorem isFrame_short (target command : Byte) {len : Byte} {payload : Bytes} (hlen : payload.length = len.toNat)
    (c0 c1 : Byte) :
    IsFrame ([0xA5, 0x5A, target, command, len] ++ payload ++ [c0, c1]) shortMarker shortFormat target command [len]
      payload (le16 c0 c1) where
  recognized := registry_short
  width := rfl
  value := by simp [leNat, hlen]
  layout := ⟨0xA5, 0x5A, c0, c1, le16_shortMarker, rfl, rfl⟩

theorem isFrame_long (target command : Byte) {len0 len1 : Byte} {payload : Bytes}
    (hlen : payload.length = len0.toNat + 256 * len1.toNat) (c0 c1 : Byte) :
    IsFrame ([0x55, 0xAA, target, command, len0, len1] ++ payload ++ [c0, c1]) longMarker longFormat target command
      [len0, len1] payload (le16 c0 c1) where
  recognized := registry_long
  width := rfl
  value := by simp [leNat, hlen]
  layout := ⟨0x55, 0xAA, c0, c1, le16_longMarker, rfl, rfl⟩

theorem registry_of_shortBytes : registry (le16 0xA5 0x5A) = some shortFormat := by
  rw [le16_shortMarker, registry_short]

theorem registry_of_longBytes : registry (le16 0x55 0xAA) = some longFormat := by
  rw [le16_longMarker, registry_long]

theorem readLength_short (m0 m1 target command len : Byte) (tail : Bytes) :
    readLength shortFormat (m0 :: m1 :: target :: command :: len :: tail) = some len.toNat := rfl

theorem readLength_long (m0 m1 target command len0 len1 : Byte) (tail : Bytes) :
    readLength longFormat (m0 :: m1 :: target :: command :: len0 :: len1 :: tail) =
      some (len0.toNat + 256 * len1.toNat) := by
  rw [← toNat_le16]
  rfl

theorem shortFormat_totalNeeded (n : Nat) : shortFormat.totalNeeded n = 7 + n := by
  rw [totalNeeded_eq, shortFormat_headerLen]

theorem longFormat_totalNeeded (n : Nat) : longFormat.totalNeeded n = 8 + n := by
  rw [totalNeeded_eq, longFormat_headerLen]

/-! ### The obligations -/

/-- Settles O22: a whole frame of R61's layout is a candidate frame, and so consumed and judged; with fewer bytes than
the minimum, or than the length byte declares, `ACC` is quiescent and the unit finds its frame incomplete. -/
theorem shortFrameIsConsumedAndJudged : Obligations.ShortFrameIsConsumedAndJudged := by
  refine ⟨?whole, ?header, ?body⟩
  case whole =>
    intro s target command len payload rest c0 c1 hlen hacc
    have hframe := isFrame_short target command hlen c0 c1
    refine ⟨hacc ▸ decodeWire_of_isFrame hframe rest, ?_⟩
    rw [exec_frameShort, takeFrame_of_isFrame hframe hacc]
    rfl
  case header =>
    intro s tail hacc hlt
    obtain ⟨hnone, hstop⟩ := frame_stops_of_lt_minFrame registry_of_shortBytes hacc hlt
    refine ⟨hnone, fun target command payload crc => ?_⟩
    rw [exec_frameShort, hstop _ rfl]
    rfl
  case body =>
    intro s target command len tail hacc hlt
    rw [← shortFormat_totalNeeded] at hlt
    have hread := readLength_short 0xA5 0x5A target command len tail
    obtain ⟨hnone, hstop⟩ := frame_stops_of_lt_totalNeeded registry_of_shortBytes hacc (hacc ▸ hread) hlt
    refine ⟨hnone, fun payload crc hlen => ?_⟩
    rw [exec_frameShort, hstop _ rfl hlen]
    rfl

/-- Settles O23: the argument of O22 at R62's layout, its length read from two bytes. -/
theorem longFrameIsConsumedAndJudged : Obligations.LongFrameIsConsumedAndJudged := by
  refine ⟨?whole, ?header, ?body⟩
  case whole =>
    intro s target command len0 len1 payload rest c0 c1 hlen hacc
    have hframe := isFrame_long target command hlen c0 c1
    refine ⟨hacc ▸ decodeWire_of_isFrame hframe rest, ?_⟩
    rw [exec_frameLong, takeFrame_of_isFrame hframe hacc]
    rfl
  case header =>
    intro s tail hacc hlt
    obtain ⟨hnone, hstop⟩ := frame_stops_of_lt_minFrame registry_of_longBytes hacc hlt
    refine ⟨hnone, fun target command payload crc => ?_⟩
    rw [exec_frameLong, hstop _ rfl]
    rfl
  case body =>
    intro s target command len0 len1 tail hacc hlt
    rw [← longFormat_totalNeeded] at hlt
    have hread := readLength_long 0x55 0xAA target command len0 len1 tail
    obtain ⟨hnone, hstop⟩ := frame_stops_of_lt_totalNeeded registry_of_longBytes hacc (hacc ▸ hread) hlt
    refine ⟨hnone, fun payload crc hlen => ?_⟩
    rw [exec_frameLong, hstop _ rfl hlen]
    rfl

/-- Settles O39: the loop's first pass takes the frame in front (`absorb_of_isFrame`); the CRC is taken over the same
wire bytes. -/
theorem candidateFrameIsConsumedWhole : Obligations.CandidateFrameIsConsumedWhole := by
  intro s chunk tail bytes marker f target command lengthField payload crc hcap hframe hacc c
  refine ⟨_, _, exec_feed_unbounded hcap, absorb_reply _ _, ?_⟩
  rw [exec_feed_unbounded hcap, absorb_of_isFrame hframe hacc]
  rfl

end Sys2Proof.Proofs
end

section
/-! `FEED` at every allowed capacity (42_frame_sync_accumulator.md section 3, 20_memory.md R52, R54): from a quiescent
`ACC` a bounded accumulator has room for every byte, so `FEED` is the unbounded loop; and the laws of that loop. -/

namespace Sys2Proof.Proofs

open Sys2Proof.Machine Sys2Proof.Laws

/-! ### Occupancy of a quiescent accumulator -/

theorem readLength_le_maxLen {f : FrameFormat} {acc : Bytes} {n : Nat} (h : readLength f acc = some n) :
    n ≤ f.maxLen := by
  unfold readLength at h
  unfold FrameFormat.maxLen
  cases hw : f.lfw with
  | one =>
    simp only [hw, Option.map_eq_some_iff] at h
    obtain ⟨b, -, rfl⟩ := h
    exact Nat.le_sub_one_of_lt b.isLt
  | two =>
    simp only [hw, Option.map_eq_some_iff] at h
    obtain ⟨w, -, rfl⟩ := h
    exact Nat.le_sub_one_of_lt w.isLt

/-- The quiescent condition behind a recognized marker (R31): below the minimum frame, or below the declared frame. -/
theorem quiescent_of_recognized_iff {m0 m1 : Byte} {tail : Bytes} {f : FrameFormat}
    (hf : registry (le16 m0 m1) = some f) :
    quiescent (m0 :: m1 :: tail) = true ↔
      (m0 :: m1 :: tail).length < f.minFrame ∨
        ∃ n, readLength f (m0 :: m1 :: tail) = some n ∧ (m0 :: m1 :: tail).length < f.totalNeeded n := by
  have hmin : 2 + f.lfw.bytes + 4 = f.minFrame := rfl
  have htotal (n : Nat) : 2 + (2 + f.lfw.bytes) + n + 2 = f.totalNeeded n := rfl
  simp only [quiescent, hf, hmin, htotal]
  cases readLength f (m0 :: m1 :: tail) <;> simp

theorem totalNeeded_le_maxFrame {f : FrameFormat} {n : Nat} (h : n ≤ f.maxLen) : f.totalNeeded n ≤ f.maxFrame := by
  rw [FrameFormat.maxFrame, totalNeeded_eq, totalNeeded_eq]
  omega

theorem minFrame_le_maxFrame (f : FrameFormat) : f.minFrame ≤ f.maxFrame := by
  rw [FrameFormat.maxFrame, totalNeeded_eq, FrameFormat.minFrame]
  omega

/-- A held candidate is shorter than the longest frame of its form (R32). -/
theorem quiescent_length_lt_maxFrame {m0 m1 : Byte} {tail : Bytes} {f : FrameFormat}
    (hf : registry (le16 m0 m1) = some f) (hq : quiescent (m0 :: m1 :: tail) = true) :
    (m0 :: m1 :: tail).length < f.maxFrame := by
  obtain hlt | ⟨n, hn, hlt⟩ := (quiescent_of_recognized_iff hf).mp hq
  · exact Nat.lt_of_lt_of_le hlt (minFrame_le_maxFrame f)
  · exact Nat.lt_of_lt_of_le hlt (totalNeeded_le_maxFrame (readLength_le_maxLen hn))

theorem shortFormat_maxFrame : shortFormat.maxFrame = 262 := by decide

theorem longFormat_maxFrame : longFormat.maxFrame = 65543 := by decide

theorem quiescent_length_lt_minCapacity {acc : Bytes} (hq : quiescent acc = true) :
    acc.length < Config.minCapacity := by
  match acc with
  | [] => decide
  | [_] => simp [Config.minCapacity]
  | b0 :: b1 :: tail =>
    cases hf : registry (le16 b0 b1) with
    | none => simp [quiescent, hf] at hq
    | some f =>
      have hlt := quiescent_length_lt_maxFrame hf hq
      obtain ⟨-, rfl⟩ | ⟨-, rfl⟩ := registry_eq_some hf
      · exact hlt
      · rw [shortFormat_maxFrame] at hlt
        exact Nat.lt_trans hlt (by decide)

/-! ### A bounded accumulator with room -/

theorem config_wf_cases {c : Config} (h : c.wf = true) :
    c.accCapacity = none ∨ ∃ cap, c.accCapacity = some cap ∧ Config.minCapacity ≤ cap := by
  unfold Config.wf at h
  cases hcap : c.accCapacity with
  | none => exact .inl rfl
  | some cap => exact .inr ⟨cap, rfl, by simpa [hcap] using h⟩

/-- Every byte finds room, since the loop leaves `ACC` quiescent after each; none stays with the host (R52). -/
theorem feedSerial_of_quiescent (v : CrcVariant) {cap : Nat} (hcap : Config.minCapacity ≤ cap) (bytes : Bytes)
    {acc : Bytes} (hq : quiescent acc = true) :
    feedSerial v cap acc bytes = ((extract v (acc ++ bytes)).1, (extract v (acc ++ bytes)).2, []) := by
  induction bytes generalizing acc with
  | nil => simp [feedSerial_nil, extract_quiescent v hq]
  | cons b bs ih =>
    have hroom : acc.length < cap := Nat.lt_of_lt_of_le (quiescent_length_lt_minCapacity hq) hcap
    rw [feedSerial_room v hroom, ih (quiescent_extract v _), List.append_cons acc b bs, extract_append v (acc ++ [b])]

theorem absorbSerial_of_quiescent {s : State} {cap : Nat} (hcap : Config.minCapacity ≤ cap)
    (hq : quiescent s.acc = true) (chunk : Bytes) : s.absorbSerial cap chunk = s.absorb chunk := by
  cases chunk with
  | nil => rfl
  | cons b bs =>
    simp only [State.absorbSerial, feedSerial_of_quiescent _ hcap _ hq, List.isEmpty_nil, if_true, State.absorb,
      accAppend]

/-- `FEED` is the unbounded loop at every allowed capacity, provided `ACC` is quiescent. -/
theorem exec_feed_of_quiescent {s : State} (hwf : s.cfg.wf = true) (hq : quiescent s.acc = true) (chunk : Bytes) :
    exec (.feed chunk) s = .next (s.absorb chunk) := by
  obtain hcap | ⟨cap, hcap, hmin⟩ := config_wf_cases hwf
  · exact exec_feed_unbounded hcap
  · rw [exec_feed_bounded hcap hmin, absorbSerial_of_quiescent hmin hq]

/-- While `ACC` stays quiescent with the chunk appended, the loop stops at once and all bytes are held. -/
theorem absorb_of_quiescent {s : State} {chunk : Bytes} (hq : quiescent (s.acc ++ chunk) = true) :
    s.absorb chunk = { s with acc := s.acc ++ chunk, reply := .events [] } := by
  simp only [State.absorb, accAppend, extract_quiescent _ hq]

/-- An attempt that would not wait here would not wait with more bytes behind it either (R130). -/
theorem quiescent_of_append {acc more : Bytes} (hq : quiescent (acc ++ more) = true) : quiescent acc = true := by
  obtain ⟨stage, hwait⟩ := (attempt_wait_iff _).mpr hq
  cases hattempt : attempt acc with
  | wait stage => exact (attempt_wait_iff acc).mp ⟨stage, hattempt⟩
  | skip m rest => simp [attempt_skip_append hattempt more] at hwait
  | frame k rest => simp [attempt_frame_append hattempt more] at hwait

/-- A length field that is buffered is read the same whatever follows. -/
theorem readLength_append {f : FrameFormat} {acc : Bytes} {n : Nat} (h : readLength f acc = some n) (more : Bytes) :
    readLength f (acc ++ more) = some n := by
  rw [← h]
  cases hw : f.lfw with
  | one =>
    have hlen : 4 < acc.length := by
      have hsome : (memRead1 acc 4).isSome = true := by simpa [readLength, hw] using congrArg Option.isSome h
      simpa [memRead1_isSome] using hsome
    simp only [readLength, hw]
    exact congrArg _ (memRead1_append acc more hlen)
  | two =>
    have hlen : 4 + 1 < acc.length := by
      have hsome : (memRead2 acc 4).isSome = true := by simpa [readLength, hw] using congrArg Option.isSome h
      simpa [memRead2_isSome] using hsome
    simp only [readLength, hw]
    exact congrArg _ (memRead2_append acc more hlen)

/-! ### The events of the loop account for its bytes -/

theorem accounts_extract (v : CrcVariant) (acc : Bytes) :
    ∃ consumed, Accounts v (extract v acc).1 consumed ∧ consumed ++ (extract v acc).2 = acc := by
  induction acc using extract_induction with
  | stop acc hq => exact ⟨[], by rw [extract_quiescent v hq]; exact ⟨.nil, rfl⟩⟩
  | skip b0 b1 tail hnone ih =>
    obtain ⟨consumed, haccounts, happend⟩ := ih
    rw [extract_skip v hnone]
    exact ⟨b0 :: consumed, .skip haccounts, congrArg (b0 :: ·) happend⟩
  | frame bytes m f t c lengthField payload crc tail hframe ih =>
    obtain ⟨consumed, haccounts, happend⟩ := ih
    rw [extract_frame v hframe]
    exact ⟨bytes ++ consumed, .frame hframe haccounts, by rw [List.append_assoc]; exact congrArg (bytes ++ ·) happend⟩

theorem accounts_length_le {v : CrcVariant} {out : List Event} {bytes : Bytes} (h : Accounts v out bytes) :
    out.length ≤ bytes.length := by
  induction h with
  | nil => exact Nat.le_refl _
  | skip _ ih => exact Nat.succ_le_succ ih
  | frame hframe _ ih =>
    have hlen := isFrame_length hframe
    rw [totalNeeded_eq] at hlen
    rw [List.length_cons, List.length_append]
    omega

/-! ### One `FEED` after another -/

/-- Feeding chunk after chunk is the loop on all of them (`extract_append`), by induction on the later chunks. -/
theorem feedAll_eq_extract (chunks : List Bytes) {s : State} (hcap : s.cfg.accCapacity = none) (chunk : Bytes) :
    ∃ t, feedAll s (chunk :: chunks) =
        some ((extract s.cfg.crcVariant (s.acc ++ (chunk :: chunks).flatten)).1, t) ∧
      t.acc = (extract s.cfg.crcVariant (s.acc ++ (chunk :: chunks).flatten)).2 ∧ t.port = s.port ∧ t.cfg = s.cfg := by
  induction chunks generalizing s chunk with
  | nil =>
    refine ⟨s.absorb chunk, ?_, by simp, rfl, rfl⟩
    simp [feedAll, exec_feed_unbounded hcap, Reply.out]
  | cons next later ih =>
    obtain ⟨t, hall, hacc, hport, hcfg⟩ := ih (s := s.absorb chunk) hcap next
    simp only [absorb_acc, absorb_cfg] at hall hacc
    have hwhole := extract_append s.cfg.crcVariant (s.acc ++ chunk) (next :: later).flatten
    rw [List.append_assoc, ← List.flatten_cons] at hwhole
    refine ⟨t, ?_, by rw [hacc, hwhole], hport, hcfg⟩
    rw [feedAll, exec_feed_unbounded hcap, hwhole]
    simp only [hall, absorb_reply, Reply.out]

/-! ### `FEED` as its wire units -/

theorem absorb_eq_absorb_nil (s : State) (chunk : Bytes) :
    s.absorb chunk = State.absorb { s with acc := s.acc ++ chunk } [] := by
  simp only [State.absorb, accAppend, List.append_nil]

/-- The decoder reads the width of a recognized frame as the row it stands for. -/
theorem exec_unit {k : Candidate} (hk : registry k.marker = some k.format) (s : State) :
    exec k.unit s = .next (s.takeFrame k) := by
  obtain ⟨format, marker, target, command, payload, crc⟩ := k
  obtain ⟨rfl, rfl⟩ | ⟨rfl, rfl⟩ := registry_eq_some hk
  · exact exec_frameLong
  · exact exec_frameShort

/-- What stands in front of an accumulator that decodes: an unrecognized pair, or a whole candidate frame. -/
theorem decodeWire_cases {acc rest : Bytes} {i : Instr} (h : decodeWire acc = some (i, rest)) :
    (∃ b0 b1 tail, registry (le16 b0 b1) = none ∧ acc = b0 :: b1 :: tail ∧ rest = b1 :: tail ∧
        i = .skip1 (le16 b0 b1)) ∨
      ∃ (bytes lengthField : Bytes) (k : Candidate),
        IsFrame bytes k.marker k.format k.target k.command lengthField k.payload k.crc ∧ acc = bytes ++ rest ∧
          i = k.unit := by
  unfold decodeWire at h
  cases hattempt : attempt acc with
  | wait stage => simp [hattempt] at h
  | skip m left =>
    simp only [hattempt, Option.some.injEq, Prod.mk.injEq] at h
    obtain ⟨rfl, rfl⟩ := h
    obtain ⟨b0, b1, tail, rfl, hnone, hacc, hrest⟩ := attempt_skip_inv hattempt
    exact .inl ⟨b0, b1, tail, hnone, hacc, hrest, rfl⟩
  | frame k left =>
    simp only [hattempt, Option.some.injEq, Prod.mk.injEq] at h
    obtain ⟨rfl, rfl⟩ := h
    obtain ⟨bytes, lengthField, hframe, hacc⟩ := attempt_frame_inv hattempt
    exact .inr ⟨bytes, lengthField, k, hframe, hacc, rfl⟩

/-- The unit in front is one pass of the loop: it leaves what the loop goes on with and answers the event the loop puts
in front. -/
theorem exec_of_decodeWire {s : State} {i : Instr} {rest : Bytes} (h : decodeWire s.acc = some (i, rest)) :
    ∃ e, exec i s = .next { s with acc := rest, reply := .events [e] } ∧
      extract s.cfg.crcVariant s.acc = emitBefore e (extract s.cfg.crcVariant rest) := by
  obtain ⟨b0, b1, tail, hnone, hacc, rfl, rfl⟩ | ⟨bytes, lengthField, k, hframe, hacc, rfl⟩ := decodeWire_cases h
  · exact ⟨.skip b0, exec_skip1_of_pair hacc, by rw [hacc, extract_skip _ hnone]⟩
  · refine ⟨_, ?_, by rw [hacc, extract_frame _ hframe]⟩
    rw [exec_unit hframe.recognized, takeFrame_of_isFrame hframe hacc]

/-! ### The obligations -/

/-- Settles O35: a quiescent `ACC` stays below the least capacity, so no byte finds it full. -/
theorem finiteInstanceEqualsUnbounded : Obligations.FiniteInstanceEqualsUnbounded := by
  intro s cap chunk hcap hmin hq
  refine ⟨s.unbounded.absorb chunk, exec_feed_unbounded rfl, ?_⟩
  rw [exec_feed_bounded hcap hmin, absorbSerial_of_quiescent hmin hq]
  rfl

/-- Settles O34: both sides are the loop on the chunks' concatenation. -/
theorem chunkingDoesNotMatter : Obligations.ChunkingDoesNotMatter := by
  intro s chunks hcap hne
  obtain ⟨chunk, later, rfl⟩ := List.exists_cons_of_ne_nil hne
  obtain ⟨t, hall, hacc, hport, hcfg⟩ := feedAll_eq_extract later hcap chunk
  exact ⟨_, t, _, hall, exec_feed_unbounded hcap, absorb_reply _ _, hacc.symm, hport.symm, hcfg.symm⟩

/-- Settles O37: by induction along the loop each event accounts for the bytes its pass consumed. -/
theorem noByteIsLostOrDuplicated : Obligations.NoByteIsLostOrDuplicated := by
  intro s chunk hcap
  obtain ⟨consumed, haccounts, happend⟩ := accounts_extract s.cfg.crcVariant (s.acc ++ chunk)
  exact ⟨_, _, consumed, exec_feed_unbounded hcap, absorb_reply _ _, haccounts, happend⟩

/-- Settles O38: every event accounts for at least one of the bytes that left. -/
theorem feedEventsAreBounded : Obligations.FeedEventsAreBounded := by
  intro s chunk hcap
  obtain ⟨consumed, haccounts, happend⟩ := accounts_extract s.cfg.crcVariant (s.acc ++ chunk)
  refine ⟨_, _, exec_feed_unbounded hcap, absorb_reply _ _, ?_⟩
  have hlen := congrArg List.length happend
  rw [List.length_append, List.length_append] at hlen
  have hle := accounts_length_le haccounts
  rw [absorb_acc]
  omega

/-- Settles O31: at an allowed capacity `FEED` is not refused, and the loop stops only where `ACC` is quiescent. -/
theorem feedCompletesQuiescent : Obligations.FeedCompletesQuiescent := by
  intro s chunk hwf
  obtain hcap | ⟨cap, hcap, hmin⟩ := config_wf_cases hwf
  · exact ⟨_, exec_feed_unbounded hcap, rfl, rfl, fun _ => quiescent_extract _ _⟩
  · refine ⟨_, exec_feed_bounded hcap hmin, absorbSerial_port _ _ _, absorbSerial_cfg _ _ _, ?_⟩
    rintro (hnone | hq)
    · simp [hcap] at hnone
    · rw [absorbSerial_of_quiescent hmin hq]
      exact quiescent_extract _ _

/-- Settles O32: a held candidate is shorter than the longest frame of its form. -/
theorem quiescentOccupancyIsBounded : Obligations.QuiescentOccupancyIsBounded := by
  intro acc hq
  refine ⟨Nat.le_of_lt_succ (quiescent_length_lt_minCapacity hq), ?_⟩
  rintro tail rfl
  have hlt := quiescent_length_lt_maxFrame registry_of_shortBytes hq
  rw [shortFormat_maxFrame] at hlt
  exact Nat.le_of_lt_succ hlt

/-- Settles O33: with nothing appended a quiescent `ACC` is held as it is. -/
theorem emptyFeedChangesNothing : Obligations.EmptyFeedChangesNothing := by
  intro s hwf hq
  have hheld : quiescent (s.acc ++ []) = true := by rwa [List.append_nil]
  rw [exec_feed_of_quiescent hwf hq, absorb_of_quiescent hheld, List.append_nil]

/-- Settles O41: with the chunk appended the candidate in front is still incomplete, so `ACC` is quiescent. -/
theorem incompleteCandidateHoldsEverything : Obligations.IncompleteCandidateHoldsEverything := by
  intro s b0 b1 tail chunk f dataLen hwf hacc hf hn hlt
  have hread := readLength_append hn chunk
  rw [← List.length_append] at hlt
  have hheld : quiescent (s.acc ++ chunk) = true := by
    rw [hacc] at hread hlt ⊢
    exact quiescent_of_lt_totalNeeded hf hread hlt
  rw [exec_feed_of_quiescent hwf (quiescent_of_append hheld), absorb_of_quiescent hheld]

/-- Settles O40: appending first is the same loop, and the unit in front is the loop's first pass. -/
theorem feedIsIteratedWireUnits : Obligations.FeedIsIteratedWireUnits := by
  constructor
  · intro s chunk hcap
    rw [exec_feed_unbounded hcap, absorb_eq_absorb_nil]
    exact (exec_feed_unbounded (s := { s with acc := s.acc ++ chunk }) hcap).symm
  · intro s i rest hcap hdecode
    obtain ⟨e, hexec, hextract⟩ := exec_of_decodeWire hdecode
    refine ⟨_, [e], _, _, hexec, rfl, rfl, exec_feed_unbounded hcap, absorb_reply _ _, ?_⟩
    rw [exec_feed_unbounded hcap]
    simp only [State.absorb, accAppend, List.append_nil, hextract, emitBefore, List.singleton_append]

/-- Settles O36: the first test of a finite `FEED` is the capacity's, the second the room for the byte. -/
theorem fullInstanceAcceptsNoByte : Obligations.FullInstanceAcceptsNoByte := by
  intro s cap hcap
  constructor
  · intro hmin hfull b
    rw [exec_feed_bounded hcap hmin]
    simp [State.absorbSerial, feedSerial_full _ hfull]
  · intro hlt chunk
    simp [exec, execFeed, hcap, Config.minCapacity, hlt]

end Sys2Proof.Proofs
end

section
/-! The registry's two formats and markers (00_scope.md section 3, 40_registry_crc.md R81): the constants of the
formats, and what keeps the markers apart from other pairs (R131, R152). -/

namespace Sys2Proof.Proofs

open Sys2Proof.Machine Sys2Proof.Laws

/-- A value with an entry has one of the two markers' second wire bytes, and one of their first. -/
theorem registry_isSome_bytes {m : U16} (h : (registry m).isSome = true) :
    (hi8 m = 0xAA ∨ hi8 m = 0x5A) ∧ (lo8 m = 0x55 ∨ lo8 m = 0xA5) := by
  obtain ⟨f, hf⟩ := Option.isSome_iff_exists.mp h
  obtain ⟨rfl, -⟩ | ⟨rfl, -⟩ := registry_eq_some hf <;> decide

/-- No marker's first wire byte is a marker's second one (R131). -/
theorem registry_straddling (b : Byte) {m : U16} (h : (registry m).isSome = true) :
    registry (le16 b (lo8 m)) = none := by
  rw [← Option.not_isSome_iff_eq_none]
  intro hstraddle
  obtain ⟨hsecond, -⟩ := registry_isSome_bytes hstraddle
  obtain ⟨-, hfirst⟩ := registry_isSome_bytes h
  rw [hi8_le16] at hsecond
  obtain hfirst | hfirst := hfirst
  · simp [hfirst] at hsecond
  · simp [hfirst] at hsecond

/-- Settles O5: the registry's two entries, their constants computed. -/
theorem formatConstantsOfBothForms : Obligations.FormatConstantsOfBothForms :=
  ⟨shortFormat, longFormat, registry_short, registry_long, by decide⟩

/-- Settles O6: the straddling pair would have a first wire byte as its second. -/
theorem noStraddlingFalseMarker : Obligations.NoStraddlingFalseMarker :=
  fun b _ h => registry_straddling b h

/-- Settles O7: the 16 neighbours of each of the two markers, all looked up. -/
theorem markerBitErrorIsUnrecognized : Obligations.MarkerBitErrorIsUnrecognized := by
  intro m bit h hbit
  obtain ⟨f, hf⟩ := Option.isSome_iff_exists.mp h
  obtain ⟨rfl, -⟩ | ⟨rfl, -⟩ := registry_eq_some hf
  · revert bit
    decide
  · revert bit
    decide

end Sys2Proof.Proofs
end

section
/-! The CRC engine (40_registry_crc.md R82 to R89): streaming, linearity over GF(2), detection of a single bit, and the
LFSR and table forms. -/

namespace Sys2Proof.Proofs

open Sys2Proof.Machine Sys2Proof.Laws

/-! ### One shift -/

theorem hqxShift_eq (c : U16) : hqxShift c = c <<< 1 ^^^ if c.getLsbD 15 then 0x1021 else 0 := by
  unfold hqxShift
  split <;> simp

theorem arcShift_eq (c : U16) : arcShift c = c >>> 1 ^^^ if c.getLsbD 0 then 0xA001 else 0 := by
  unfold arcShift
  split <;> simp

/-- The bit shifted out comes back as bit 0 of the polynomial. -/
theorem hqxShift_getLsbD_zero (c : U16) : (hqxShift c).getLsbD 0 = c.getLsbD 15 := by
  rw [hqxShift_eq, BitVec.getLsbD_xor]
  cases c.getLsbD 15 <;> simp

theorem arcShift_getLsbD_top (c : U16) : (arcShift c).getLsbD 15 = c.getLsbD 0 := by
  rw [arcShift_eq, BitVec.getLsbD_xor]
  cases c.getLsbD 0 <;> simp

/-- A shift loses nothing: the bit that leaves the register is seen in the bit that enters. -/
theorem hqxShift_injective : Function.Injective hqxShift := by
  intro a b h
  have htop : a.getLsbD 15 = b.getLsbD 15 := by rw [← hqxShift_getLsbD_zero, h, hqxShift_getLsbD_zero]
  rw [hqxShift_eq, hqxShift_eq, htop, BitVec.xor_left_inj] at h
  apply BitVec.eq_of_getLsbD_eq
  intro i hi
  by_cases hi15 : i = 15
  · rw [hi15, htop]
  · have hbit := congrArg (·.getLsbD (i + 1)) h
    have hlt : i + 1 < 16 := by omega
    simpa only [BitVec.getLsbD_shiftLeft, hlt, Nat.not_lt.2 (Nat.le_add_left 1 i), Nat.add_sub_cancel, decide_true,
      decide_false, Bool.not_false, Bool.true_and] using hbit

theorem arcShift_injective : Function.Injective arcShift := by
  intro a b h
  have hlow : a.getLsbD 0 = b.getLsbD 0 := by rw [← arcShift_getLsbD_top, h, arcShift_getLsbD_top]
  rw [arcShift_eq, arcShift_eq, hlow, BitVec.xor_left_inj] at h
  apply BitVec.eq_of_getLsbD_eq
  intro i hi
  cases i with
  | zero => exact hlow
  | succ i =>
    have hbit := congrArg (·.getLsbD i) h
    simpa [Nat.add_comm] using hbit

theorem eightTimes_injective {f : U16 → U16} (h : Function.Injective f) : Function.Injective (eightTimes f) :=
  h.comp <| h.comp <| h.comp <| h.comp <| h.comp <| h.comp <| h.comp h

/-! ### One byte -/

/-- A byte's place in the `HQX` register is its upper half (R83), in the `ARC` register its lower half (R84). -/
theorem hi8_shiftLeft_byte (b : Byte) : hi8 (b.setWidth 16 <<< 8) = b := by
  simpa [le16] using hi8_le16 0 b

theorem lo8_byte (b : Byte) : lo8 (b.setWidth 16) = b := by
  simp [lo8]

/-- A byte enters the register by exclusive-or and eight linear shifts (R88 (iii)). -/
theorem crcByte_xor (v : CrcVariant) (c d : U16) (a b : Byte) :
    crcByte v (c ^^^ d) (a ^^^ b) = crcByte v c a ^^^ crcByte v d b := by
  cases v with
  | hqx =>
    simp only [crcByte]
    rw [← eightTimes_xor hqxShift_xor, BitVec.setWidth_xor, BitVec.shiftLeft_xor_distrib]
    congr 1
    ac_rfl
  | arc =>
    simp only [crcByte]
    rw [← eightTimes_xor arcShift_xor, BitVec.setWidth_xor]
    congr 1
    ac_rfl

theorem crcByte_zero (v : CrcVariant) : crcByte v 0 0 = 0 := by
  cases v <;> decide

theorem crcByte_injective_register (v : CrcVariant) (b : Byte) : Function.Injective (crcByte v · b) := by
  intro c d h
  cases v with
  | hqx => exact (BitVec.xor_left_inj _).mp (eightTimes_injective hqxShift_injective h)
  | arc => exact (BitVec.xor_left_inj _).mp (eightTimes_injective arcShift_injective h)

theorem crcByte_injective_byte (v : CrcVariant) (c : U16) : Function.Injective (crcByte v c) := by
  intro a b h
  cases v with
  | hqx =>
    have hword := congrArg hi8 ((BitVec.xor_right_inj _).mp (eightTimes_injective hqxShift_injective h))
    rwa [hi8_shiftLeft_byte, hi8_shiftLeft_byte] at hword
  | arc =>
    have hword := congrArg lo8 ((BitVec.xor_right_inj _).mp (eightTimes_injective arcShift_injective h))
    rwa [lo8_byte, lo8_byte] at hword

/-! ### A message -/

theorem crc16_append (v : CrcVariant) (seed : U16) (a b : Bytes) :
    crc16 v seed (a ++ b) = crc16 v (crc16 v seed a) b := List.foldl_append

theorem crc16_xor (v : CrcVariant) (s t : U16) {a b : Bytes} (hlen : a.length = b.length) :
    crc16 v s a ^^^ crc16 v t b = crc16 v (s ^^^ t) (List.zipWith (· ^^^ ·) a b) := by
  induction a generalizing s t b with
  | nil =>
    obtain rfl := List.eq_nil_of_length_eq_zero hlen.symm
    rfl
  | cons x xs ih =>
    cases b with
    | nil => cases hlen
    | cons y ys =>
      rw [crc16_cons, crc16_cons, ih _ _ (Nat.succ.inj hlen), List.zipWith_cons_cons, crc16_cons, crcByte_xor]

theorem crc16_zeros (v : CrcVariant) {a : Bytes} (h : ∀ x ∈ a, x = 0) : crc16 v 0 a = 0 := by
  induction a with
  | nil => rfl
  | cons x xs ih =>
    obtain ⟨rfl, hxs⟩ := List.forall_mem_cons.mp h
    rw [crc16_cons, crcByte_zero, ih hxs]

theorem crc16_injective_seed (v : CrcVariant) (a : Bytes) : Function.Injective (crc16 v · a) := by
  induction a with
  | nil => exact Function.injective_id
  | cons x xs ih => exact ih.comp (crcByte_injective_register v x)

theorem byte_flip_ne (b : Byte) {bit : Nat} (hbit : bit < 8) : b ^^^ (1#8 <<< bit) ≠ b := by
  intro h
  have hset := congrArg (·.getLsbD bit) h
  simp [hbit] at hset

/-- The flipped byte gives another register, and the bytes after it keep the two registers apart. -/
theorem crc16_flip_ne (v : CrcVariant) (seed : U16) {a : Bytes} {k bit : Nat} (hk : k < a.length) (hbit : bit < 8) :
    crc16 v seed (a.modify k (· ^^^ (1#8 <<< bit))) ≠ crc16 v seed a := by
  induction a generalizing k seed with
  | nil => cases hk
  | cons x xs ih =>
    cases k with
    | zero =>
      intro h
      have hregister := crc16_injective_seed v xs h
      exact byte_flip_ne x hbit (crcByte_injective_byte v seed hregister)
    | succ k => exact ih _ (Nat.lt_of_succ_lt_succ hk)

/-! ### The LFSR form -/

/-- The taps of R85 are the polynomial `0x1021`. -/
theorem lfsrHqxBit_eq (c : U16) (d : Bool) :
    lfsrHqxBit c d = c <<< 1 ^^^ if (c.getLsbD 15 ^^ d) then 0x1021 else 0 := by
  apply BitVec.eq_of_getLsbD_eq
  intro i hi
  unfold lfsrHqxBit
  generalize (c.getLsbD 15 ^^ d) = fb
  interval_cases i <;> cases fb <;> simp

theorem lfsrArcBit_eq (c : U16) (d : Bool) :
    lfsrArcBit c d = c >>> 1 ^^^ if (c.getLsbD 0 ^^ d) then 0xA001 else 0 := by
  apply BitVec.eq_of_getLsbD_eq
  intro i hi
  unfold lfsrArcBit
  generalize (c.getLsbD 0 ^^ d) = fb
  interval_cases i <;> cases fb <;> simp

/-- Data bits that wait in the register's upper end enter one at a time, the others move up. -/
theorem hqxShift_xor_data (c x : U16) : hqxShift (c ^^^ x) = lfsrHqxBit c (x.getLsbD 15) ^^^ x <<< 1 := by
  rw [hqxShift_eq, lfsrHqxBit_eq, BitVec.getLsbD_xor, BitVec.shiftLeft_xor_distrib]
  ac_rfl

theorem arcShift_xor_data (c x : U16) : arcShift (c ^^^ x) = lfsrArcBit c (x.getLsbD 0) ^^^ x >>> 1 := by
  rw [arcShift_eq, lfsrArcBit_eq, BitVec.getLsbD_xor, BitVec.ushiftRight_xor_distrib]
  ac_rfl

/-- Eight data bits entered one at a time: the next bit stands each time where the shift looks, and the last shift
leaves none behind. -/
theorem lfsrByte_eq_crcByte (v : CrcVariant) : lfsrByte v = crcByte v := by
  funext c b
  cases v with
  | hqx =>
    simp only [crcByte, eightTimes, hqxShift_xor_data, lfsrByte, List.foldl]
    simp
  | arc =>
    have hgone : b.setWidth 16 >>> 8 = 0#16 := by
      apply BitVec.eq_of_toNat_eq
      have hb := b.isLt
      simp only [BitVec.toNat_ushiftRight, BitVec.toNat_setWidth, Nat.shiftRight_eq_div_pow, BitVec.toNat_ofNat]
      omega
    simp only [crcByte, eightTimes, arcShift_xor_data, lfsrByte, List.foldl]
    simp [hgone]

/-! ### The table form -/

theorem word_eq_bytes (c : U16) : (lo8 c).setWidth 16 ^^^ (hi8 c).setWidth 16 <<< 8 = c := by
  apply BitVec.eq_of_getLsbD_eq
  intro i hi
  by_cases hlow : i < 8
  · simp [lo8, hlow, hi]
  · have hbit : 8 + (i - 8) = i := by omega
    have hlt : i - 8 < 8 := by omega
    simp [lo8, hi8, hlow, hi, hbit, hlt]

theorem shiftLeft_lo8 (c : U16) : (lo8 c).setWidth 16 <<< 8 = c <<< 8 := by
  apply BitVec.eq_of_getLsbD_eq
  intro i hi
  have hlt : i - 8 < 8 := by omega
  have hlt16 : i - 8 < 16 := by omega
  simp [lo8, hlt, hlt16]

theorem ushiftRight_hi8 (c : U16) : (hi8 c).setWidth 16 <<< 8 >>> 8 = c >>> 8 := by
  apply BitVec.eq_of_getLsbD_eq
  intro i hi
  by_cases hlow : i < 8
  · have hlt : 8 + i < 16 := by omega
    simp [hi8, hlow, hlt, hi]
  · simp [hi8, hlow, BitVec.getLsbD_of_ge c (8 + i) (by omega)]

/-- The half of the register that does not meet the byte meets no feedback in eight shifts: it only moves. -/
theorem eightTimes_hqxShift_lo8 (c : U16) : eightTimes hqxShift ((lo8 c).setWidth 16) = c <<< 8 := by
  simp [eightTimes, hqxShift_eq, shiftLeft_lo8]

theorem eightTimes_arcShift_hi8 (c : U16) : eightTimes arcShift ((hi8 c).setWidth 16 <<< 8) = c >>> 8 := by
  simp [eightTimes, arcShift_eq, ushiftRight_hi8]

theorem crcTable_hqx (i : Byte) : crcTable .hqx i = eightTimes hqxShift (i.setWidth 16 <<< 8) := by
  simp [crcTable, crcByte]

theorem crcTable_arc (i : Byte) : crcTable .arc i = eightTimes arcShift (i.setWidth 16) := by
  simp [crcTable, crcByte]

theorem tableByte_eq_crcByte (v : CrcVariant) : tableByte v = crcByte v := by
  funext c b
  cases v with
  | hqx =>
    have hsplit : c ^^^ b.setWidth 16 <<< 8 = (lo8 c).setWidth 16 ^^^ (hi8 c ^^^ b).setWidth 16 <<< 8 := by
      conv_lhs => rw [← word_eq_bytes c]
      rw [BitVec.setWidth_xor, BitVec.shiftLeft_xor_distrib, BitVec.xor_assoc]
    rw [tableByte, crcTable_hqx, crcByte, hsplit, eightTimes_xor hqxShift_xor, eightTimes_hqxShift_lo8]
  | arc =>
    have hsplit : c ^^^ b.setWidth 16 = (hi8 c).setWidth 16 <<< 8 ^^^ (lo8 c ^^^ b).setWidth 16 := by
      conv_lhs => rw [← word_eq_bytes c]
      rw [BitVec.setWidth_xor]
      ac_rfl
    rw [tableByte, crcTable_arc, crcByte, hsplit, eightTimes_xor arcShift_xor, eightTimes_arcShift_hi8]

/-! ### The obligations -/

/-- Settles O8: the register is a fold along the message. -/
theorem crcStreamsByteByByte : Obligations.CrcStreamsByteByByte :=
  fun v seed a b => ⟨crc16_nil v seed, crc16_append v seed a b⟩

/-- Settles O9: every byte's step is linear in the register and the byte together. -/
theorem crcIsLinear : Obligations.CrcIsLinear :=
  ⟨fun v s t _ _ hlen => crc16_xor v s t hlen, fun v _ hzero => crc16_zeros v hzero⟩

/-- Settles O10: one byte's step is injective in the byte and in the register. -/
theorem crcDetectsEverySingleBit : Obligations.CrcDetectsEverySingleBit :=
  fun v seed _ _ _ hk hbit => crc16_flip_ne v seed hk hbit

/-- Settles O11: eight data bits entered one at a time are one byte's step. -/
theorem lfsrFormComputesTheCrc : Obligations.LfsrFormComputesTheCrc := by
  intro v seed s
  rw [crc16Lfsr, lfsrByte_eq_crcByte, crc16]

/-- Settles O12: the table holds what eight shifts make of the half of the register that meets the byte. -/
theorem tableFormComputesTheCrc : Obligations.TableFormComputesTheCrc := by
  intro v seed s
  rw [crc16Table, tableByte_eq_crcByte, crc16]

/-- Settles O13: the four values, computed in the kernel. -/
theorem crcCheckValuesReproduced : Obligations.CrcCheckValuesReproduced := by
  unfold Obligations.CrcCheckValuesReproduced
  decide +kernel

end Sys2Proof.Proofs
end

section
/-! Decoding and encoding (30_encoding.md): requests in the model's layout (log 4), and the wire units at the front of
`ACC`. -/

namespace Sys2Proof.Proofs

open Sys2Proof.Machine Sys2Proof.Laws

/-! ### Requests -/

theorem decodeFields_encodeFields (p : Packet) : decodeFields (encodeFields p) = some p := by
  obtain ⟨framing, target, command, payload⟩ := p
  simp [encodeFields, wordBytes, decodeFields]

theorem decodeNew_encodeFields (p : Packet) :
    decodeNew (encodeFields p) = .ok (.new p.command p.framing p.target p.payload) := by
  simp only [decodeNew, decodeFields_encodeFields]

theorem decodeEncode_encodeFields {p : Packet} (hf : (registry p.framing).isSome = true) :
    decodeEncode (encodeFields p) = .ok (.encode p) := by
  obtain ⟨f, hf⟩ := Option.isSome_iff_exists.mp hf
  simp only [decodeEncode, decodeFields_encodeFields, hf]

/-- `ENCODE` is decoded only where the framing has a registry entry (R101). -/
theorem decodeEncode_ok {operands : Bytes} {i : Instr} (h : decodeEncode operands = .ok i) :
    ∃ p, i = .encode p ∧ (registry p.framing).isSome = true := by
  unfold decodeEncode at h
  cases hfields : decodeFields operands with
  | none => simp [hfields] at h
  | some p =>
    cases hf : registry p.framing with
    | none => simp [hfields, hf] at h
    | some f =>
      simp only [hfields, hf, Except.ok.injEq] at h
      exact ⟨p, h.symm, by rw [hf]; rfl⟩

theorem decodeNew_ok {operands : Bytes} {i : Instr} (h : decodeNew operands = .ok i) :
    ∃ p : Packet, i = .new p.command p.framing p.target p.payload := by
  unfold decodeNew at h
  cases hfields : decodeFields operands with
  | none => simp [hfields] at h
  | some p => exact ⟨p, by simpa [hfields] using h.symm⟩

theorem decodeLookup_ok {operands : Bytes} {i : Instr} (h : decodeLookup operands = .ok i) : ∃ m, i = .lookup m := by
  unfold decodeLookup at h
  split at h
  · exact ⟨_, (Except.ok.inj h).symm⟩
  · cases h

theorem decodeReset_ok {operands : Bytes} {i : Instr} (h : decodeReset operands = .ok i) : i = .reset := by
  unfold decodeReset at h
  split at h
  · exact (Except.ok.inj h).symm
  · cases h

/-- What a request can decode to (R71); only an `ENCODE` has an operand that must meet a condition. -/
theorem decodePort_ok {request : Bytes} {i : Instr} (h : decodePort request = .ok i) :
    (∃ m, i = .lookup m) ∨ (∃ p : Packet, i = .new p.command p.framing p.target p.payload) ∨
      (∃ p, i = .encode p ∧ (registry p.framing).isSome = true) ∨ (∃ chunk, i = .feed chunk) ∨ i = .reset := by
  unfold decodePort at h
  split at h
  · cases h
  · split at h
    case h_1 => exact .inl (decodeLookup_ok h)
    case h_2 => exact .inr (.inl (decodeNew_ok h))
    case h_3 => exact .inr (.inr (.inl (decodeEncode_ok h)))
    case h_4 => exact .inr (.inr (.inr (.inl ⟨_, (Except.ok.inj h).symm⟩)))
    case h_5 => exact .inr (.inr (.inr (.inr (decodeReset_ok h))))
    case h_6 => cases h

theorem decodePort_wf {request : Bytes} {i : Instr} (h : decodePort request = .ok i) :
    i.wf = true ∧ i.isWire = false := by
  obtain ⟨m, rfl⟩ | ⟨p, rfl⟩ | ⟨p, rfl, hf⟩ | ⟨chunk, rfl⟩ | rfl := decodePort_ok h
  case inr.inr.inl => exact ⟨hf, rfl⟩
  all_goals exact ⟨rfl, rfl⟩

/-! ### Wire units -/

/-- A recognized candidate's unit is written with the candidate's own marker and format. -/
theorem encode_unit {k : Candidate} (hk : registry k.marker = some k.format) :
    encode k.unit = frameBytes k.marker k.format k.target k.command k.payload k.crc := by
  obtain ⟨format, marker, target, command, payload, crc⟩ := k
  obtain ⟨rfl, rfl⟩ | ⟨rfl, rfl⟩ := registry_eq_some hk <;> rfl

theorem unit_wf {k : Candidate} (hk : registry k.marker = some k.format) (hle : k.payload.length ≤ k.format.maxLen) :
    k.unit.wf = true ∧ k.unit.isWire = true := by
  obtain ⟨format, marker, target, command, payload, crc⟩ := k
  obtain ⟨rfl, rfl⟩ | ⟨rfl, rfl⟩ := registry_eq_some hk
  · exact ⟨decide_eq_true hle, rfl⟩
  · exact ⟨decide_eq_true hle, rfl⟩

/-- What the encoder writes for a candidate within `MAXLEN` is decoded back to its unit. -/
theorem decodeWire_encode_unit {k : Candidate} (hk : registry k.marker = some k.format)
    (hle : k.payload.length ≤ k.format.maxLen) (rest : Bytes) :
    decodeWire (encode k.unit ++ rest) = some (k.unit, rest) := by
  rw [encode_unit hk]
  exact decodeWire_of_isFrame (isFrame_frameBytes hk k.target k.command hle k.crc) rest

theorem decodeWire_encode_skip1 {m : U16} (hm : registry m = none) (rest : Bytes) :
    decodeWire (encode (.skip1 m) ++ rest) = some (.skip1 m, hi8 m :: rest) := by
  have hnone : registry (le16 (lo8 m) (hi8 m)) = none := by rwa [le16_lo8_hi8]
  have hdecode := decodeWire_of_unrecognized hnone rest
  rwa [le16_lo8_hi8] at hdecode

/-! ### The obligations -/

/-- Settles O26: the select byte picks the operand decoder that reads back what its encoder wrote. -/
theorem portRequestsRoundTrip : Obligations.PortRequestsRoundTrip := by
  intro i hwf hport
  cases i with
  | frameShort target command payload crc => cases hport
  | frameLong target command payload crc => cases hport
  | skip1 m => cases hport
  | lookup m => exact congrArg (fun w => Except.ok (Instr.lookup w)) (le16_lo8_hi8 m)
  | new command framing target payload => exact decodeNew_encodeFields ⟨framing, target, command, payload⟩
  | encode p => exact decodeEncode_encodeFields hwf
  | feed chunk => rfl
  | reset => rfl

/-- Settles O27: a frame's encoding is a whole candidate frame, a skip's an unrecognized pair. -/
theorem wireUnitsRoundTrip : Obligations.WireUnitsRoundTrip := by
  intro i rest hwf hwire
  cases i with
  | frameShort target command payload crc =>
    refine ⟨fun _ => ?_, fun m hskip => by cases hskip⟩
    exact decodeWire_encode_unit (k := ⟨shortFormat, shortMarker, target, command, payload, crc⟩) registry_short
      (of_decide_eq_true hwf) rest
  | frameLong target command payload crc =>
    refine ⟨fun _ => ?_, fun m hskip => by cases hskip⟩
    exact decodeWire_encode_unit (k := ⟨longFormat, longMarker, target, command, payload, crc⟩) registry_long
      (of_decide_eq_true hwf) rest
  | skip1 m =>
    refine ⟨fun hne => absurd rfl (hne m), ?_⟩
    rintro _ ⟨⟩
    exact decodeWire_encode_skip1 (Option.isNone_iff_eq_none.mp hwf) rest
  | lookup m => cases hwire
  | new command framing target payload => cases hwire
  | encode p => cases hwire
  | feed chunk => cases hwire
  | reset => cases hwire

/-- Settles O28: what decodes in front of `ACC` is an unrecognized pair or a whole candidate frame, each of which is its
unit's encoding. -/
theorem decodingReadsOnlyWhatIsWritten : Obligations.DecodingReadsOnlyWhatIsWritten := by
  refine ⟨fun acc rest i h => ?_, fun request i h => decodePort_wf h⟩
  obtain ⟨b0, b1, tail, hnone, rfl, rfl, rfl⟩ | ⟨bytes, lengthField, k, hframe, rfl, rfl⟩ := decodeWire_cases h
  · refine ⟨Option.isNone_iff_eq_none.mpr hnone, rfl, tail, ?_, fun hne => absurd rfl (hne _), ?_⟩
    · simp [encode, wordBytes]
    · rintro _ ⟨⟩
      rw [hi8_le16]
  · obtain ⟨hwf, hwire⟩ := unit_wf hframe.recognized (isFrame_payload_le hframe)
    refine ⟨hwf, hwire, rest, ?_, fun _ => rfl, fun m hskip => absurd hskip (candidate_unit_ne_skip1 k m)⟩
    rw [encode_unit hframe.recognized, ← isFrame_bytes_eq hframe]

/-- Settles O15: the operand decoder's cases, one for each number of operands left out. -/
theorem omittedOperandsTakeDefaults : Obligations.OmittedOperandsTakeDefaults :=
  fun _ _ _ _ => ⟨rfl, rfl, rfl, rfl⟩

/-- Settles O29: the two frames stand in the layouts of R61 and R62, the swapped marker has no entry, and the requests
are read by computation. -/
theorem knownWordsDecode : Obligations.KnownWordsDecode := by
  refine ⟨?short, ?long, ?skip, rfl, rfl, rfl⟩
  case short =>
    exact decodeWire_of_isFrame (isFrame_short 0x00 0x01 (len := 0x02) (payload := [0x05, 0x00]) rfl 0x21 0xE7) []
  case long =>
    exact decodeWire_of_isFrame
      (isFrame_long 0x02 0x08 (len0 := 0x04) (len1 := 0x00) (payload := [0xDE, 0xAD, 0xBE, 0xEF]) rfl 0xC3 0xEF) []
  case skip => exact decodeWire_of_unrecognized (b0 := 0x5A) (b1 := 0xA5) (by decide) [0x00]

/-- Settles O19: the meaning looks the framing up before it serializes; a request's framing is looked up when it is
decoded. -/
theorem encodeOfNoPacketIsRefused : Obligations.EncodeOfNoPacketIsRefused := by
  constructor
  · intro p s hencoder hf
    simp [exec, execEncode, hencoder, hf]
  · intro request p h
    exact (decodePort_wf h).1

end Sys2Proof.Proofs
end

section
/-! Encoder and decoder together (41_packet_serializer.md R104 to R106, 42_frame_sync_accumulator.md R134,
43_packet_parser.md R150, R151): a packet's frame, in front of `ACC`, behind garbage, and with one bit flipped. -/

namespace Sys2Proof.Proofs

open Sys2Proof.Machine Sys2Proof.Laws

/-! ### The frame of a packet -/

/-- The CRC `ENCODE` writes for a packet of format `f` (R102). -/
def packetCrc (v : CrcVariant) (f : FrameFormat) (p : Packet) : U16 :=
  crc16 v f.crcInit (coveredBytes f p.target p.command p.payload)

/-- The bytes `ENCODE` answers for a packet of format `f` (R102). -/
def packetFrame (v : CrcVariant) (f : FrameFormat) (p : Packet) : Bytes :=
  frameBytes p.framing f p.target p.command p.payload (packetCrc v f p)

theorem exec_encode_packetFrame {s : State} {p : Packet} {f : FrameFormat} (h : s.cfg.hasEncoder = true)
    (hf : registry p.framing = some f) (hle : p.payload.length ≤ f.maxLen) :
    exec (.encode p) s = .next { s with reply := .bytes (packetFrame s.cfg.crcVariant f p) } :=
  exec_encode_of_fits h hf hle

/-- `ENCODE` answers bytes only for a packet within `MAXLEN`, and then its frame. -/
theorem exec_encode_bytes_inv {s : State} {p : Packet} {frame : Bytes}
    (h : exec (.encode p) s = .next { s with reply := .bytes frame }) :
    ∃ f, registry p.framing = some f ∧ p.payload.length ≤ f.maxLen ∧ frame = packetFrame s.cfg.crcVariant f p := by
  obtain ⟨-, f, hf, ⟨-, ht⟩ | ⟨hle, ht⟩⟩ := exec_encode_cases h
  · cases congrArg State.reply ht
  · exact ⟨f, hf, hle, Reply.bytes.inj (congrArg State.reply ht)⟩

theorem packetFrame_eq_cons (v : CrcVariant) (f : FrameFormat) (p : Packet) :
    ∃ rest, packetFrame v f p = lo8 p.framing :: rest := ⟨_, rfl⟩

section Valid

variable {p : Packet} {f : FrameFormat} (hf : registry p.framing = some f) (hle : p.payload.length ≤ f.maxLen)
  (v : CrcVariant)

include hf hle

theorem isFrame_packetFrame :
    IsFrame (packetFrame v f p) p.framing f p.target p.command (lengthBytes f.lfw p.payload.length) p.payload
      (packetCrc v f p) :=
  isFrame_frameBytes hf p.target p.command hle (packetCrc v f p)

/-- The loop takes a packet's frame off the front and emits the packet. -/
theorem extract_packetFrame (tail : Bytes) :
    extract v (packetFrame v f p ++ tail) = emitBefore (.packet p) (extract v tail) := by
  rw [extract_frame v (isFrame_packetFrame hf hle v)]
  congr 1
  exact if_pos rfl

end Valid

/-- The packet can be read off its frame: an attempt on the frame gives its fields. -/
theorem packetFrame_injective {v : CrcVariant} {p q : Packet} {f g : FrameFormat} (hf : registry p.framing = some f)
    (hg : registry q.framing = some g) (hp : p.payload.length ≤ f.maxLen) (hq : q.payload.length ≤ g.maxLen)
    (h : packetFrame v f p = packetFrame v g q) : p = q := by
  have hattempt := attempt_frame (isFrame_packetFrame hf hp v) []
  rw [h, attempt_frame (isFrame_packetFrame hg hq v) []] at hattempt
  simp only [Attempt.frame.injEq, Candidate.mk.injEq, and_true] at hattempt
  obtain ⟨-, hframing, htarget, hcommand, hpayload, -⟩ := hattempt
  obtain ⟨_, _, _, _⟩ := p
  obtain ⟨_, _, _, _⟩ := q
  rw [Packet.mk.injEq]
  exact ⟨hframing.symm, htarget.symm, hcommand.symm, hpayload.symm⟩

/-! ### Operations that do not look at `ACC` -/

theorem exec_new_ignores_acc {c : Byte} {framing : U16} {tg : Byte} {payload : Bytes} {s t : State}
    (h : exec (.new c framing tg payload) s = .next t) (other : Bytes) :
    t = s.answer t.reply ∧
      exec (.new c framing tg payload) { s with acc := other } = .next { t with acc := other } := by
  obtain ⟨hencoder, ⟨hf, rfl⟩ | ⟨hf, rfl⟩⟩ := exec_new_cases h
  · exact ⟨rfl, exec_new_of_unrecognized (s := { s with acc := other }) hencoder hf c tg payload⟩
  · exact ⟨rfl, exec_new_of_recognized (s := { s with acc := other }) hencoder hf c tg payload⟩

theorem exec_encode_ignores_acc {p : Packet} {s t : State} (h : exec (.encode p) s = .next t) (other : Bytes) :
    t = s.answer t.reply ∧ exec (.encode p) { s with acc := other } = .next { t with acc := other } := by
  obtain ⟨hencoder, f, hf, ⟨hlt, rfl⟩ | ⟨hle, rfl⟩⟩ := exec_encode_cases h
  · exact ⟨rfl, exec_encode_of_oversized (s := { s with acc := other }) hencoder hf hlt⟩
  · exact ⟨rfl, exec_encode_of_fits (s := { s with acc := other }) hencoder hf hle⟩

/-! ### The loop cut at an event -/

/-- Where the loop's output is cut, its bytes are cut: the earlier events account for the bytes in front, and the loop
on the bytes behind them gives the rest. -/
theorem extracts_append_inv {v : CrcVariant} {earlier out : List Event} {acc left : Bytes}
    (h : Extracts v acc (earlier ++ out) left) :
    ∃ before behind, Accounts v earlier before ∧ acc = before ++ behind ∧ Extracts v behind out left := by
  induction earlier generalizing acc with
  | nil => exact ⟨[], acc, .nil, rfl, h⟩
  | cons e es ih =>
    rw [List.cons_append] at h
    cases h with
    | skip hnone next =>
      obtain ⟨before, behind, haccounts, happend, hrest⟩ := ih next
      exact ⟨_ :: before, behind, .skip haccounts, congrArg (_ :: ·) happend, hrest⟩
    | @frame bytes _ _ _ _ _ _ _ _ _ _ hframe next =>
      obtain ⟨before, behind, haccounts, rfl, hrest⟩ := ih next
      exact ⟨bytes ++ before, behind, .frame hframe haccounts, (List.append_assoc _ _ _).symm, hrest⟩

theorem frameVerdict_eq_packet {v : CrcVariant} {m : U16} {f : FrameFormat} {t c : Byte} {lengthField payload : Bytes}
    {crc : U16} {p : Packet} (h : frameVerdict v m f t c lengthField payload crc = .packet p) :
    crc16 v f.crcInit (t :: c :: (lengthField ++ payload)) = crc ∧ p = ⟨m, t, c, payload⟩ := by
  by_cases hcrc : crc16 v f.crcInit (t :: c :: (lengthField ++ payload)) = crc
  · rw [frameVerdict, if_pos hcrc] at h
    exact ⟨hcrc, (Event.packet.inj h).symm⟩
  · rw [frameVerdict, if_neg hcrc] at h
    cases h

/-- Where the loop emits a packet first, that packet's frame stands in front (R150). -/
theorem extracts_packet_inv {v : CrcVariant} {acc left : Bytes} {p : Packet} {out : List Event}
    (h : Extracts v acc (.packet p :: out) left) :
    ∃ f tail, registry p.framing = some f ∧ p.payload.length ≤ f.maxLen ∧ acc = packetFrame v f p ++ tail ∧
      Extracts v tail out left := by
  generalize hevents : Event.packet p :: out = events at h
  cases h with
  | stop hq => cases hevents
  | skip hnone next => cases hevents
  | @frame bytes m f t c lengthField payload crc tail _ _ hframe next =>
    obtain ⟨hverdict, rfl⟩ := List.cons.inj hevents
    obtain ⟨hcrc, rfl⟩ := frameVerdict_eq_packet hverdict.symm
    refine ⟨f, tail, hframe.recognized, isFrame_payload_le hframe, ?_, next⟩
    rw [isFrame_bytes_eq hframe, ← hcrc, isFrame_lengthField_eq hframe]
    rfl

theorem extracts_accounts {v : CrcVariant} {acc left : Bytes} {out : List Event} (h : Extracts v acc out left) :
    ∃ consumed, Accounts v out consumed ∧ consumed ++ left = acc := by
  have hconsumed := accounts_extract v acc
  rwa [extract_eq_of_extracts h] at hconsumed

/-! ### Garbage in front of a frame -/

/-- No two neighbouring bytes are a recognized marker (the proviso of R134). -/
def MarkerFree (garbage : Bytes) : Prop :=
  ∀ left b0 b1 right, garbage = left ++ b0 :: b1 :: right → registry (le16 b0 b1) = none

theorem MarkerFree.tail {b : Byte} {garbage : Bytes} (h : MarkerFree (b :: garbage)) : MarkerFree garbage :=
  fun left b0 b1 right heq => h (b :: left) b0 b1 right (congrArg (b :: ·) heq)

/-- Every garbage byte is skipped: its pair is no marker inside the garbage, nor where the frame begins (R131). -/
theorem extract_garbage (v : CrcVariant) {m : U16} (hm : (registry m).isSome = true) (tail : Bytes) {garbage : Bytes}
    (hfree : MarkerFree garbage) :
    extract v (garbage ++ lo8 m :: tail) =
      (garbage.map Event.skip ++ (extract v (lo8 m :: tail)).1, (extract v (lo8 m :: tail)).2) := by
  induction garbage with
  | nil => rfl
  | cons b rest ih =>
    have hpair : ∃ b1 behind, rest ++ lo8 m :: tail = b1 :: behind ∧ registry (le16 b b1) = none := by
      cases rest with
      | nil => exact ⟨lo8 m, tail, rfl, registry_straddling b hm⟩
      | cons b1 right => exact ⟨b1, _, rfl, hfree [] b b1 right rfl⟩
    obtain ⟨b1, behind, hbehind, hnone⟩ := hpair
    rw [List.cons_append, hbehind, extract_skip v hnone, ← hbehind, ih hfree.tail]
    rfl

theorem extract_garbage_packetFrame {p : Packet} {f : FrameFormat} (hf : registry p.framing = some f)
    (hle : p.payload.length ≤ f.maxLen) (v : CrcVariant) (tail : Bytes) {garbage : Bytes}
    (hfree : MarkerFree garbage) :
    extract v (garbage ++ (packetFrame v f p ++ tail)) =
      (garbage.map Event.skip ++ .packet p :: (extract v tail).1, (extract v tail).2) := by
  have hm : (registry p.framing).isSome = true := by rw [hf]; rfl
  obtain ⟨rest, hrest⟩ := packetFrame_eq_cons v f p
  have hskips := extract_garbage v hm (rest ++ tail) hfree
  rwa [← List.cons_append, ← hrest, extract_packetFrame hf hle] at hskips

/-! ### One flipped bit -/

theorem modify_append_left {a b : Bytes} {k : Nat} (g : Byte → Byte) (h : k < a.length) :
    (a ++ b).modify k g = a.modify k g ++ b := by
  induction a generalizing k with
  | nil => cases h
  | cons x xs ih =>
    cases k with
    | zero => rfl
    | succ k => exact congrArg (x :: ·) (ih (Nat.lt_of_succ_lt_succ h))

theorem modify_append_right (a b : Bytes) (k : Nat) (g : Byte → Byte) :
    (a ++ b).modify (a.length + k) g = a ++ b.modify k g := by
  induction a with
  | nil => rw [List.length_nil, Nat.zero_add]; rfl
  | cons x xs ih =>
    rw [List.length_cons, Nat.succ_add]
    exact congrArg (x :: ·) ih

/-- A flip in the CRC field changes the value read from it. -/
theorem le16_flip_ne (c0 c1 : Byte) {k bit : Nat} (hk : k < 2) (hbit : bit < 8) :
    ∃ d0 d1, [c0, c1].modify k (· ^^^ (1#8 <<< bit)) = [d0, d1] ∧ le16 d0 d1 ≠ le16 c0 c1 := by
  match k, hk with
  | 0, _ =>
    refine ⟨_, c1, rfl, fun h => byte_flip_ne c0 hbit ?_⟩
    simpa only [lo8_le16] using congrArg lo8 h
  | 1, _ =>
    refine ⟨c0, _, rfl, fun h => byte_flip_ne c1 hbit ?_⟩
    simpa only [hi8_le16] using congrArg hi8 h

/-- A flip outside marker and length field leaves a candidate frame of the same length field; either the covered bytes
have the flip and the CRC field is as it was, or the CRC field differs and the covered bytes are as they were. -/
theorem isFrame_flip {bytes : Bytes} {m : U16} {f : FrameFormat} {t c : Byte} {lengthField payload : Bytes} {crc : U16}
    (h : IsFrame bytes m f t c lengthField payload crc) {k bit : Nat} (hk : k < bytes.length)
    (hplace : k = 2 ∨ k = 3 ∨ f.payloadOff ≤ k) (hbit : bit < 8) :
    ∃ t' c' payload' crc', IsFrame (bytes.modify k (· ^^^ (1#8 <<< bit))) m f t' c' lengthField payload' crc' ∧
      ((∃ j, j < (t :: c :: (lengthField ++ payload)).length ∧ crc' = crc ∧
          t' :: c' :: (lengthField ++ payload') =
            (t :: c :: (lengthField ++ payload)).modify j (· ^^^ (1#8 <<< bit))) ∨
        (crc' ≠ crc ∧ t' :: c' :: (lengthField ++ payload') = t :: c :: (lengthField ++ payload))) := by
  obtain ⟨hm, hwidth, hvalue, m0, m1, c0, c1, hmarker, hcrc, rfl⟩ := h
  obtain rfl | rfl | hoff := hplace
  · exact ⟨_, c, payload, crc, ⟨hm, hwidth, hvalue, m0, m1, c0, c1, hmarker, hcrc, rfl⟩, .inl ⟨0, by simp, rfl, rfl⟩⟩
  · exact ⟨t, _, payload, crc, ⟨hm, hwidth, hvalue, m0, m1, c0, c1, hmarker, hcrc, rfl⟩, .inl ⟨1, by simp, rfl, rfl⟩⟩
  · obtain ⟨j, rfl⟩ : ∃ j, k = lengthField.length + j + 4 := by
      refine ⟨k - (lengthField.length + 4), ?_⟩
      simp only [FrameFormat.payloadOff, FrameFormat.headerLen] at hoff
      omega
    simp only [List.modify_succ_cons, List.append_assoc, modify_append_right]
    by_cases hj : j < payload.length
    · refine ⟨t, c, payload.modify j (· ^^^ (1#8 <<< bit)), crc,
        ⟨hm, hwidth, by rwa [List.length_modify], m0, m1, c0, c1, hmarker, hcrc, ?_⟩,
        .inl ⟨lengthField.length + j + 2, by simpa using hj, rfl, ?_⟩⟩
      · rw [modify_append_left _ hj, List.append_assoc]
      · simp only [List.modify_succ_cons, modify_append_right]
    · obtain ⟨i, rfl⟩ := Nat.exists_eq_add_of_le (Nat.le_of_not_lt hj)
      have hi : i < 2 := by
        simp only [List.length_cons, List.length_append, List.length_nil] at hk
        omega
      obtain ⟨d0, d1, hd, hne⟩ := le16_flip_ne c0 c1 hi hbit
      refine ⟨t, c, payload, le16 d0 d1, ⟨hm, hwidth, hvalue, m0, m1, d0, d1, hmarker, rfl, ?_⟩,
        .inr ⟨hcrc ▸ hne, rfl⟩⟩
      rw [modify_append_right, hd, List.append_assoc]

/-- A flipped frame in front gives a mismatch, and the loop goes on behind it (R151). -/
theorem extract_flipped_packetFrame {p : Packet} {f : FrameFormat} (hf : registry p.framing = some f)
    (hle : p.payload.length ≤ f.maxLen) (v : CrcVariant) {k bit : Nat} (hk : k < (packetFrame v f p).length)
    (hplace : k = 2 ∨ k = 3 ∨ f.payloadOff ≤ k) (hbit : bit < 8) (tail : Bytes) :
    ∃ computed received, computed ≠ received ∧
      extract v ((packetFrame v f p).modify k (· ^^^ (1#8 <<< bit)) ++ tail) =
        emitBefore (.crcMismatch computed received) (extract v tail) := by
  obtain ⟨t, c, payload, crc, hframe, hflip⟩ := isFrame_flip (isFrame_packetFrame hf hle v) hk hplace hbit
  have hne : crc16 v f.crcInit (t :: c :: (lengthBytes f.lfw p.payload.length ++ payload)) ≠ crc := by
    obtain ⟨j, hj, rfl, hcovered⟩ | ⟨hcrc, hcovered⟩ := hflip
    · rw [hcovered]
      exact crc16_flip_ne v f.crcInit hj hbit
    · rw [hcovered]
      exact hcrc.symm
  refine ⟨_, crc, hne, ?_⟩
  rw [extract_frame v hframe, frameVerdict, if_neg hne]

/-! ### The obligations -/

/-- Settles O44: the frame is the packet's, its CRC field the CRC over the covered bytes, and an empty `ACC` is
quiescent. -/
theorem encodedPacketIsDecodedBack : Obligations.EncodedPacketIsDecodedBack := by
  intro s p f hencoder hf hle
  refine ⟨_, exec_encode_packetFrame hencoder hf hle, fun r hacc hwf hvariant => ?_⟩
  have hempty : quiescent r.acc = true := by rw [hacc, quiescent_nil]
  have hextract := extract_packetFrame hf hle s.cfg.crcVariant []
  rw [List.append_nil, extract_quiescent _ quiescent_nil] at hextract
  rw [exec_feed_of_quiescent hwf hempty]
  simp only [State.absorb, accAppend, hacc, List.nil_append, hvariant, hextract, emitBefore]

/-- Settles O45: the loop's relation is cut before the packet, and the packet read off the frame in front there. -/
theorem decodedPacketReencodesToItsBytes : Obligations.DecodedPacketReencodesToItsBytes := by
  intro s t chunk earlier later p hcap hfeed hreply
  rw [exec_feed_unbounded hcap] at hfeed
  cases hfeed
  rw [absorb_reply, Reply.events.injEq] at hreply
  have hloop := extracts_extract s.cfg.crcVariant (s.acc ++ chunk)
  rw [hreply] at hloop
  obtain ⟨left, behind, hleft, hacc, hbehind⟩ := extracts_append_inv hloop
  obtain ⟨f, tail, hf, hle, rfl, htail⟩ := extracts_packet_inv hbehind
  obtain ⟨right, hright, rfl⟩ := extracts_accounts htail
  refine ⟨by simpa [packetWf, hf] using hle, left, packetFrame s.cfg.crcVariant f p, right, hleft, hright, ?_, ?_, ?_⟩
  · rw [absorb_acc, List.append_assoc, List.append_assoc]
    exact hacc.symm
  · rw [exec_feed_unbounded (s := { s with acc := [] }) hcap]
    simp only [State.absorb, accAppend, List.nil_append, List.append_assoc, extract_eq_of_extracts hbehind]
  · intro e hencoder hvariant
    rw [exec_encode_packetFrame hencoder hf hle, hvariant]

/-- Settles O46: every garbage byte is skipped up to the frame, which is the packet's. -/
theorem frameAfterGarbageIsFound : Obligations.FrameAfterGarbageIsFound := by
  intro s e chunk garbage frame tail p hcap hvariant hencode hacc hfree
  obtain ⟨f, hf, hle, rfl⟩ := exec_encode_bytes_inv hencode
  rw [hvariant] at hacc
  have hextract := extract_garbage_packetFrame hf hle s.cfg.crcVariant tail hfree
  rw [← List.append_assoc, ← hacc] at hextract
  refine ⟨_, _, exec_feed_unbounded hcap, absorb_reply _ _, ?_⟩
  rw [exec_feed_unbounded hcap]
  simp only [State.absorb, accAppend, hextract, List.nil_append]

/-- Settles O47: the flipped frame is a candidate frame whose CRC field is not the CRC over its covered bytes. -/
theorem singleBitTamperIsDropped : Obligations.SingleBitTamperIsDropped := by
  intro s e chunk frame tail p f k bit hcap hvariant hencode hf hk hplace hbit hacc
  obtain ⟨f', hf', hle, rfl⟩ := exec_encode_bytes_inv hencode
  obtain rfl : f' = f := by rw [hf] at hf'; exact (Option.some.inj hf').symm
  rw [hvariant] at hk hacc
  obtain ⟨computed, received, hne, hextract⟩ :=
    extract_flipped_packetFrame hf hle s.cfg.crcVariant hk hplace hbit tail
  refine ⟨_, _, computed, received, hne, exec_feed_unbounded hcap, absorb_reply _ _, ?_⟩
  rw [exec_feed_unbounded hcap]
  simp only [State.absorb, accAppend, hacc, hextract, emitBefore, List.nil_append]

/-- Settles O20: the three meanings answer from their operands and the parameters. -/
theorem encoderIgnoresAccumulator : Obligations.EncoderIgnoresAccumulator := by
  rintro i s t other (⟨m, rfl⟩ | ⟨c, framing, tg, payload, rfl⟩ | ⟨p, rfl⟩) h
  · cases h
    exact ⟨rfl, rfl⟩
  · exact exec_new_ignores_acc h other
  · exact exec_encode_ignores_acc h other

/-- Settles O21: bytes are answered only for packets within `MAXLEN`, whose frames can be read back. -/
theorem distinctPacketsHaveDistinctFrames : Obligations.DistinctPacketsHaveDistinctFrames := by
  intro s p q frame hencodeP hencodeQ
  obtain ⟨f, hf, hp, rfl⟩ := exec_encode_bytes_inv hencodeP
  obtain ⟨g, hg, hq, heq⟩ := exec_encode_bytes_inv hencodeQ
  exact packetFrame_injective hf hg hp hq heq

end Sys2Proof.Proofs
end

section
/-! One extraction attempt (42_frame_sync_accumulator.md R135, 60_exceptions.md R167): where it stops or comes to, by
how many bytes are buffered, and the condition it reports. -/

namespace Sys2Proof.Proofs

open Sys2Proof.Machine Sys2Proof.Laws

/-! ### Where an attempt comes to -/

theorem attempt_of_lt_two {acc : Bytes} (h : acc.length < 2) : attempt acc = .wait .sync := by
  match acc, h with
  | [], _ => exact attempt_nil
  | [b], _ => exact attempt_singleton b
  | _ :: _ :: _, h => simp at h

section Recognized

variable {m0 m1 : Byte} {tail : Bytes} {f : FrameFormat} (hf : registry (le16 m0 m1) = some f)

include hf

/-- Step 3c (R120): the header's bytes are not all there. -/
theorem attempt_of_lt_header (hlt : (m0 :: m1 :: tail).length < f.headerLen + 4) :
    attempt (m0 :: m1 :: tail) = .wait .header := by
  rw [attempt_cons_cons, hf]
  exact if_pos hlt

theorem attempt_eq_attemptFrame (hge : f.headerLen + 4 ≤ (m0 :: m1 :: tail).length) :
    attempt (m0 :: m1 :: tail) = attemptFrame (le16 m0 m1) f (m0 :: m1 :: tail) := by
  rw [attempt_cons_cons, hf]
  exact if_neg (Nat.not_lt.mpr hge)

variable {n : Nat} (hge : f.headerLen + 4 ≤ (m0 :: m1 :: tail).length)
  (hn : readLength f (m0 :: m1 :: tail) = some n)

include hge hn

/-- Step 3e: the declared frame is not all there. -/
theorem attempt_of_lt_total (hlt : (m0 :: m1 :: tail).length < f.totalNeeded n) :
    attempt (m0 :: m1 :: tail) = .wait .body := by
  rw [attempt_eq_attemptFrame hf hge]
  obtain ⟨_, _, n', -, -, hn', ⟨-, hwait⟩ | ⟨hle, -⟩⟩ := attemptFrame_eq (m := le16 m0 m1) hge
  · exact hwait
  · cases hn.symm.trans hn'
    omega

/-- Steps 3f and 3g: the declared frame is all there, and its CRC field is read at its end. -/
theorem attempt_of_total_le (hle : f.totalNeeded n ≤ (m0 :: m1 :: tail).length) :
    ∃ k, attempt (m0 :: m1 :: tail) = .frame k ((m0 :: m1 :: tail).drop (f.totalNeeded n)) ∧ k.format = f ∧
      k.payload.length = n ∧ memRead2 (m0 :: m1 :: tail) (f.totalNeeded n - 2) = some k.crc := by
  rw [attempt_eq_attemptFrame hf hge]
  obtain ⟨t, c, n', -, -, hn', ⟨hlt, -⟩ | ⟨-, crc, hcrc, hframe⟩⟩ := attemptFrame_eq (m := le16 m0 m1) hge
  · cases hn.symm.trans hn'
    omega
  · cases hn.symm.trans hn'
    refine ⟨_, hframe, rfl, ?_, hcrc⟩
    simp only [memSlice, List.length_take, List.length_drop]
    rw [totalNeeded_eq] at hle
    unfold FrameFormat.payloadOff
    omega

end Recognized

/-- An attempt stops for want of a marker exactly below two bytes, and every other stop is one of steps 3c and 3e. -/
theorem attempt_wait_cases {acc : Bytes} {stage : Stage} (h : attempt acc = .wait stage) :
    (stage = .sync ∧ acc.length < 2) ∨ (2 ≤ acc.length ∧ (stage = .header ∨ stage = .body)) := by
  match acc with
  | [] => exact .inl ⟨(Attempt.wait.inj h).symm, by simp⟩
  | [_] => exact .inl ⟨(Attempt.wait.inj h).symm, by simp⟩
  | m0 :: m1 :: tail =>
    refine .inr ⟨by simp, ?_⟩
    cases hf : registry (le16 m0 m1) with
    | none =>
      rw [attempt_skip hf] at h
      cases h
    | some f =>
      by_cases hge : f.headerLen + 4 ≤ (m0 :: m1 :: tail).length
      · obtain ⟨n, hn⟩ := Option.isSome_iff_exists.mp (readLength_isSome hge)
        by_cases hle : f.totalNeeded n ≤ (m0 :: m1 :: tail).length
        · obtain ⟨k, hframe, -⟩ := attempt_of_total_le hf hge hn hle
          rw [hframe] at h
          cases h
        · rw [attempt_of_lt_total hf hge hn (Nat.lt_of_not_le hle)] at h
          cases h
          exact .inr rfl
      · rw [attempt_of_lt_header hf (Nat.lt_of_not_le hge)] at h
        cases h
        exact .inl rfl

/-! ### The condition an attempt comes to -/

theorem attemptCondition_of_wait (v : CrcVariant) {acc : Bytes} {stage : Stage} (h : attempt acc = .wait stage) :
    attemptCondition v acc = some .insufficientData := by
  rw [attemptCondition, h]

theorem frameVerdict_condition (v : CrcVariant) (m : U16) (f : FrameFormat) (t c : Byte) (lengthField payload : Bytes)
    (crc : U16) :
    (frameVerdict v m f t c lengthField payload crc).condition =
      if crc16 v f.crcInit (t :: c :: (lengthField ++ payload)) = crc then none else some .crcMismatch := by
  simp only [frameVerdict]
  split <;> rfl

/-- The covered bytes stand between the marker and the CRC field (20_memory.md R45). -/
theorem memSlice_covered {bytes : Bytes} {m : U16} {f : FrameFormat} {t c : Byte} {lengthField payload : Bytes}
    {crc : U16} (h : IsFrame bytes m f t c lengthField payload crc) (rest : Bytes) :
    memSlice (bytes ++ rest) 2 (f.totalNeeded payload.length - 4) = t :: c :: (lengthField ++ payload) := by
  obtain ⟨m0, m1, c0, c1, -, -, hbytes⟩ := h.layout
  have hlen : f.totalNeeded payload.length - 4 = (t :: c :: (lengthField ++ payload)).length := by
    simp only [FrameFormat.totalNeeded, FrameFormat.headerLen, List.length_cons, List.length_append, h.width]
    omega
  have hacc : bytes ++ rest = [m0, m1] ++ ((t :: c :: (lengthField ++ payload)) ++ ([c0, c1] ++ rest)) := by
    simp [hbytes]
  rw [hlen, hacc]
  exact memSlice_append [m0, m1] _ _

theorem attemptCondition_of_frame (v : CrcVariant) {acc rest : Bytes} {k : Candidate}
    (h : attempt acc = .frame k rest) :
    attemptCondition v acc =
      if crc16 v k.format.crcInit (memSlice acc 2 (k.format.totalNeeded k.payload.length - 4)) = k.crc then none
      else some .crcMismatch := by
  obtain ⟨bytes, lengthField, hframe, rfl⟩ := attempt_frame_inv h
  rw [attemptCondition, h]
  simp only
  rw [isFrame_judge_eq hframe, frameVerdict_condition, memSlice_covered hframe]

/-! ### The obligations -/

/-- Settles O42: each stop is an attempt that waits, and the CRC's verdict is on the bytes between marker and CRC
field. -/
theorem attemptTestsInFixedOrder : Obligations.AttemptTestsInFixedOrder := by
  intro v acc
  refine ⟨fun hlt => attemptCondition_of_wait v (attempt_of_lt_two hlt), ?_⟩
  rintro b0 b1 tail rfl
  refine ⟨fun hnone => by rw [attemptCondition, attempt_skip hnone], fun f hf => ?_⟩
  refine ⟨fun hlt => attemptCondition_of_wait v (attempt_of_lt_header hf hlt), fun n hge hn => ?_⟩
  refine ⟨fun hlt => attemptCondition_of_wait v (attempt_of_lt_total hf hge hn hlt), fun hle crc hcrc => ?_⟩
  obtain ⟨k, hframe, rfl, rfl, hread⟩ := attempt_of_total_le hf hge hn hle
  cases hcrc.symm.trans hread
  exact attemptCondition_of_frame v hframe

/-- Settles O43: one direction is the stop of that test, the other that the tests behind it come to another place. -/
theorem attemptPlacesFollowTheBuffer : Obligations.AttemptPlacesFollowTheBuffer := by
  refine ⟨?sync, ?check, ?recognized⟩
  case sync =>
    intro acc
    refine ⟨fun h => ?_, attempt_of_lt_two⟩
    obtain ⟨-, hlt⟩ | ⟨-, hstage | hstage⟩ := attempt_wait_cases h
    · exact hlt
    · cases hstage
    · cases hstage
  case check =>
    intro acc h
    obtain ⟨hstage, -⟩ | ⟨-, hstage | hstage⟩ := attempt_wait_cases h <;> cases hstage
  case recognized =>
    rintro b0 b1 tail _ f rfl hf
    constructor
    · refine ⟨fun h => Nat.lt_of_not_le fun hge => ?_, attempt_of_lt_header hf⟩
      obtain ⟨n, hn⟩ := Option.isSome_iff_exists.mp (readLength_isSome hge)
      by_cases hle : f.totalNeeded n ≤ (b0 :: b1 :: tail).length
      · obtain ⟨k, hframe, -⟩ := attempt_of_total_le hf hge hn hle
        rw [hframe] at h
        cases h
      · rw [attempt_of_lt_total hf hge hn (Nat.lt_of_not_le hle)] at h
        cases h
    · intro n hge hn
      by_cases hle : f.totalNeeded n ≤ (b0 :: b1 :: tail).length
      · obtain ⟨k, hframe, -⟩ := attempt_of_total_le hf hge hn hle
        simp only [hframe, Attempt.place, hle, Nat.not_lt.mpr hle, reduceCtorEq, iff_self, and_self]
      · have hlt := Nat.lt_of_not_le hle
        simp only [attempt_of_lt_total hf hge hn hlt, Attempt.place, hle, hlt, reduceCtorEq, iff_self, and_self]

end Sys2Proof.Proofs
end

section
/-! The step: what it runs (log 3, 6), the whole-machine rules, and the invariant (10_state.md section 5). -/

namespace Sys2Proof.Proofs

open Sys2Proof.Machine Sys2Proof.Laws

/-! ### What a step runs -/

theorem step_of_decodeWire {s : State} {i : Instr} {rest : Bytes} (h : decodeWire s.acc = some (i, rest)) :
    step s = exec i s := by
  simp only [step, State.fetch, h]

section AtRest

variable {s : State} (h : decodeWire s.acc = none)

include h

theorem step_of_no_request (hport : s.port = []) : step s = .next s := by
  simp only [step, State.fetch, h, hport]

theorem step_of_request {request : Bytes} {later : List Bytes} {i : Instr} (hport : s.port = request :: later)
    (hdecode : decodePort request = .ok i) : step s = exec i { s with port := later } := by
  simp only [step, State.fetch, h, hport, hdecode]

theorem step_of_bad_request {request : Bytes} {later : List Bytes} {e : DecodeError}
    (hport : s.port = request :: later) (hdecode : decodePort request = .error e) :
    step s = .refused (refusalOf e) := by
  simp only [step, State.fetch, h, hport, hdecode]

end AtRest

theorem decodePort_of_unassigned {b : Byte} (h : 5 ≤ (opSelect b).toNat) (operands : Bytes) :
    decodePort (b :: operands) = .error (.unassignedOp (opSelect b)) := by
  unfold decodePort
  split
  case h_1 heq => cases heq
  case h_2 heq =>
    cases heq
    split
    case h_6 => rfl
    all_goals omega

/-! ### What an operation leaves unchanged -/

/-- No meaning writes the waiting requests or the parameters (R26). -/
theorem exec_port_cfg {i : Instr} {s t : State} (h : exec i s = .next t) : t.port = s.port ∧ t.cfg = s.cfg := by
  cases i with
  | frameShort target command payload crc =>
    rw [exec_frameShort] at h
    cases h
    exact ⟨takeFrame_port _ _, takeFrame_cfg _ _⟩
  | frameLong target command payload crc =>
    rw [exec_frameLong] at h
    cases h
    exact ⟨takeFrame_port _ _, takeFrame_cfg _ _⟩
  | skip1 m =>
    rw [exec_skip1] at h
    cases h
    exact ⟨skipByte_port _ _, skipByte_cfg _ _⟩
  | lookup m =>
    cases h
    exact ⟨rfl, rfl⟩
  | new command framing target payload =>
    obtain ⟨-, ⟨-, rfl⟩ | ⟨-, rfl⟩⟩ := exec_new_cases h <;> exact ⟨rfl, rfl⟩
  | encode p =>
    obtain ⟨-, f, -, ⟨-, rfl⟩ | ⟨-, rfl⟩⟩ := exec_encode_cases h <;> exact ⟨rfl, rfl⟩
  | feed chunk =>
    obtain ⟨-, rfl⟩ | ⟨cap, -, -, rfl⟩ := exec_feed_cases h
    · exact ⟨rfl, rfl⟩
    · exact ⟨absorbSerial_port _ _ _, absorbSerial_cfg _ _ _⟩
  | reset =>
    cases h
    exact ⟨rfl, rfl⟩

/-! ### A wire unit run by itself -/

/-- The verdict is the candidate's packet, or a mismatch of its CRC field. -/
theorem judge_cases (v : CrcVariant) (k : Candidate) :
    judge v k = .packet ⟨k.marker, k.target, k.command, k.payload⟩ ∨
      ∃ c, c ≠ k.crc ∧ judge v k = .crcMismatch c k.crc := by
  obtain ⟨format, marker, target, command, payload, crc⟩ := k
  rw [judge_eq_frameVerdict, frameVerdict]
  split
  · exact .inl rfl
  · exact .inr ⟨_, ‹_›, rfl⟩

theorem takeFrame_event {s : State} {k : Candidate} (h : k.format.totalNeeded k.payload.length ≤ s.acc.length) :
    ∃ e, s.takeFrame k =
        { s with acc := s.acc.drop (k.format.totalNeeded k.payload.length), reply := .events [e] } ∧
      (e = .packet ⟨k.marker, k.target, k.command, k.payload⟩ ∨ ∃ c, c ≠ k.crc ∧ e = .crcMismatch c k.crc) :=
  ⟨_, takeFrame_of_le s h, judge_cases _ _⟩

/-! ### The invariant -/

theorem frameVerdict_wf {bytes : Bytes} {m : U16} {f : FrameFormat} {t c : Byte} {lengthField payload : Bytes}
    {crc : U16} (h : IsFrame bytes m f t c lengthField payload crc) (v : CrcVariant) :
    (frameVerdict v m f t c lengthField payload crc).wf = true := by
  rw [frameVerdict]
  split
  · simp [Event.wf, packetWf, h.recognized, isFrame_payload_le h]
  · exact decide_eq_true ‹_›

/-- Every event of the loop is well formed (R144, R150). -/
theorem extract_events_wf (v : CrcVariant) (acc : Bytes) : (extract v acc).1.all Event.wf = true := by
  induction acc using extract_induction with
  | stop acc hq =>
    rw [extract_quiescent v hq]
    rfl
  | skip b0 b1 tail hnone ih =>
    rw [extract_skip v hnone]
    exact ih
  | frame bytes m f t c lengthField payload crc tail hframe ih =>
    rw [extract_frame v hframe, emitBefore, List.all_cons, frameVerdict_wf hframe, ih, Bool.and_self]

theorem inv_iff {s : State} : s.inv = true ↔ quiescent s.acc = true ∧ s.reply.wf = true := by
  simp [State.inv]

theorem inv_absorb (s : State) (chunk : Bytes) : (s.absorb chunk).inv = true :=
  inv_iff.mpr ⟨quiescent_extract _ _, extract_events_wf _ _⟩

theorem registry_reply_wf (m : U16) : (Reply.format (registry m)).wf = true := by
  cases hf : registry m with
  | none => rfl
  | some f =>
    obtain ⟨-, rfl⟩ | ⟨-, rfl⟩ := registry_eq_some hf
    · decide
    · decide

/-- A frame has between 7 and 65543 bytes, whichever its form. -/
theorem frameBytes_reply_wf {m : U16} {f : FrameFormat} (hf : registry m = some f) (t c : Byte) {payload : Bytes}
    (hle : payload.length ≤ f.maxLen) (crc : U16) : (Reply.bytes (frameBytes m f t c payload crc)).wf = true := by
  apply decide_eq_true
  rw [frameBytes_length]
  have hmax := totalNeeded_le_maxFrame hle
  have hmin : shortFormat.minFrame = 7 := rfl
  have hlong := longFormat_maxFrame
  obtain ⟨-, rfl⟩ | ⟨-, rfl⟩ := registry_eq_some hf
  · rw [longFormat_totalNeeded] at hmax ⊢
    omega
  · rw [shortFormat_maxFrame] at hmax
    rw [shortFormat_totalNeeded] at hmax ⊢
    omega

/-- From a quiescent `ACC` every port operation answers a well-formed result and leaves `ACC` quiescent. -/
theorem exec_inv {i : Instr} {s t : State} (hport : i.isWire = false) (hq : quiescent s.acc = true)
    (h : exec i s = .next t) : t.inv = true := by
  cases i with
  | frameShort target command payload crc => cases hport
  | frameLong target command payload crc => cases hport
  | skip1 m => cases hport
  | lookup m =>
    cases h
    exact inv_iff.mpr ⟨hq, registry_reply_wf m⟩
  | new command framing target payload =>
    obtain ⟨-, ⟨hf, rfl⟩ | ⟨hf, rfl⟩⟩ := exec_new_cases h
    · exact inv_iff.mpr ⟨hq, Option.isNone_iff_eq_none.mpr hf⟩
    · exact inv_iff.mpr ⟨hq, hf⟩
  | encode p =>
    obtain ⟨-, f, hf, ⟨hlt, rfl⟩ | ⟨hle, rfl⟩⟩ := exec_encode_cases h
    · exact inv_iff.mpr ⟨hq, decide_eq_true hlt⟩
    · exact inv_iff.mpr ⟨hq, frameBytes_reply_wf hf _ _ hle _⟩
  | feed chunk =>
    obtain ⟨-, rfl⟩ | ⟨cap, -, hmin, rfl⟩ := exec_feed_cases h
    · exact inv_absorb s chunk
    · rw [absorbSerial_of_quiescent hmin hq]
      exact inv_absorb s chunk
  | reset =>
    cases h
    exact inv_iff.mpr ⟨quiescent_nil, rfl⟩

/-! ### The obligations -/

/-- Settles O51: a quiescent `ACC` holds no wire unit, so the step rests or runs a port operation. -/
theorem everyStepKeepsTheInvariant : Obligations.EveryStepKeepsTheInvariant := by
  intro s t hinv h
  obtain ⟨hq, -⟩ := inv_iff.mp hinv
  obtain ⟨-, -, rfl⟩ | ⟨i, rest, hdecode, -⟩ | ⟨request, later, i, -, -, hdecode, hexec⟩ := step_cases h
  · exact hinv
  · rw [(decodeWire_eq_none_iff s.acc).mpr hq] at hdecode
    cases hdecode
  · obtain ⟨-, hport⟩ := decodePort_wf hdecode
    exact exec_inv (s := { s with port := later }) hport hq hexec

/-- Settles O52: whatever the step runs keeps the parameters. -/
theorem noStepChangesTheConfiguration : Obligations.NoStepChangesTheConfiguration := by
  intro s t h
  obtain ⟨-, -, rfl⟩ | ⟨i, rest, -, hexec⟩ | ⟨request, later, i, -, -, -, hexec⟩ := step_cases h
  · rfl
  · exact (exec_port_cfg hexec).2
  · exact (exec_port_cfg hexec).2

/-- Settles O53: the three other operations change the answer only. -/
theorem onlyDecoderOperationsWriteAccumulator : Obligations.OnlyDecoderOperationsWriteAccumulator := by
  intro i s t h
  obtain ⟨hport, hcfg⟩ := exec_port_cfg h
  refine ⟨hport, hcfg, fun hne => ?_⟩
  cases i with
  | frameShort target command payload crc => exact .inl rfl
  | frameLong target command payload crc => exact .inl rfl
  | skip1 m => exact .inl rfl
  | feed chunk => exact .inr (.inr ⟨chunk, rfl⟩)
  | reset => exact .inr (.inl rfl)
  | lookup m =>
    cases h
    exact absurd rfl hne
  | new command framing target payload =>
    obtain ⟨-, ⟨-, rfl⟩ | ⟨-, rfl⟩⟩ := exec_new_cases h <;> exact absurd rfl hne
  | encode p =>
    obtain ⟨-, f, -, ⟨-, rfl⟩ | ⟨-, rfl⟩⟩ := exec_encode_cases h <;> exact absurd rfl hne

/-- Settles O2: an empty `ACC` is quiescent, and the answer is `nothing`. -/
theorem resetMeetsInvariant : Obligations.ResetMeetsInvariant :=
  inv_iff.mpr ⟨quiescent_nil, rfl⟩

/-- Settles O25: the two frame units share one meaning, whose two cases are decided by the bytes in `ACC`. -/
theorem wireUnitsCompleteInEveryState : Obligations.WireUnitsCompleteInEveryState := by
  intro s target command payload crc m
  rw [exec_frameShort, exec_frameLong, exec_skip1, ← shortFormat_totalNeeded, ← longFormat_totalNeeded]
  refine ⟨fun hle => ?_, fun hlt => ?_, fun hle => ?_, fun hlt => ?_, fun hle => ?_, fun hlt => ?_⟩
  · obtain ⟨e, htake, he⟩ := takeFrame_event (k := ⟨shortFormat, shortMarker, target, command, payload, crc⟩) hle
    exact ⟨e, congrArg _ htake, he⟩
  · exact congrArg _ (takeFrame_of_lt s hlt)
  · obtain ⟨e, htake, he⟩ := takeFrame_event (k := ⟨longFormat, longMarker, target, command, payload, crc⟩) hle
    exact ⟨e, congrArg _ htake, he⟩
  · exact congrArg _ (takeFrame_of_lt s hlt)
  · exact congrArg _ (skipByte_of_le s hle)
  · exact congrArg _ (skipByte_of_lt s hlt)

/-- Settles O48: the front of `ACC` is looked at before the port. -/
theorem stepRunsTheWireUnitInFront : Obligations.StepRunsTheWireUnitInFront :=
  fun _ _ _ h => step_of_decodeWire h

/-- Settles O49: with nothing decoded in front the fetch goes on to the port. -/
theorem stepRunsTheOldestRequest : Obligations.StepRunsTheOldestRequest :=
  fun _ h => ⟨fun _ _ _ hport hdecode => step_of_request h hport hdecode, step_of_no_request h⟩

/-- Settles O50: no operation's decoder has these codes, and a request that does not decode is refused. -/
theorem unassignedSelectCodesAreRefused : Obligations.UnassignedSelectCodesAreRefused :=
  fun _ _ operands _ h hport hop => step_of_bad_request h hport (decodePort_of_unassigned hop operands)

end Sys2Proof.Proofs
end
